-- ==== Sys2Proof/Word.lean ====
section
/-! DEFINITION. The two word types of the engine: the 32-bit words of the command port and of the response
port (R60, R66), and the 16-bit slots of the TransferBuffer, which are also the timer's reload values (R13, R22). -/

namespace Sys2Proof

/-- A word of a command frame, a response or a step label (R60). -/
abbrev Word := BitVec 32

/-- One slot of the TransferBuffer: a DividerValue (R13, R16). -/
abbrev Slot := BitVec 16

end Sys2Proof
end

