-- ==== Sys2Proof/Syntax.lean ====
section
/-! DEFINITION. The syntax: the nine rows of spec/opcode_table.json, and the four agents whose steps they are (R62, R156). -/

namespace Sys2Proof

/-- A PulseSegment (R35): `count` pulses of one requested frequency in hertz, both 32-bit unsigned (R5). -/
structure Segment where
  count : Word
  frequency : Word
  deriving DecidableEq, Repr, Inhabited

/-- One operation of the command interface (format CMD) or one internal step (format INT), R60 to R62. -/
inductive Instr where
  /-- INIT, R101. -/
  | init
  /-- SUBMIT with its segment list, R102. -/
  | submit (segs : List Segment)
  /-- START, R104. -/
  | start
  /-- STOP, R109. -/
  | stop
  /-- STATUS, R111. -/
  | status
  /-- CAPACITY, R113. -/
  | capacity
  /-- PERIOD_ELAPSED, the step of the TIMER agent, R124. -/
  | periodElapsed
  /-- ISR_TE, the transfer-exhausted handler, R144. -/
  | isrTe
  /-- ISR_FPE, the final-period-elapsed handler, R145. -/
  | isrFpe
  deriving DecidableEq, Repr

/-- The four agents (R156). -/
inductive Agent where
  | host
  | timer
  | isrTe
  | isrFpe
  deriving DecidableEq, Repr

end Sys2Proof
end

