-- ==== Sys2Proof/WellFormed.lean ====
section
/-! DEFINITION. Which instructions have an encoding: `nseg` is 16 bits, so a SUBMIT carries 0 to 65535 segments (R74).
The fields of a segment are 32-bit words by their type (R5), so nothing else is left to check. -/

namespace Sys2Proof

/-- The instruction has an encoding (R74). -/
def Instr.wellFormed : Instr → Bool
  | .init => true
  | .submit segs => decide (segs.length ≤ 65535)
  | .start => true
  | .stop => true
  | .status => true
  | .capacity => true
  | .periodElapsed => true
  | .isrTe => true
  | .isrFpe => true

end Sys2Proof
end

