-- ==== Sys2Proof/Decode.lean ====
section
/-! DEFINITION. Decoding of command frames and step labels (R60 to R65, R70, R71), then the encoder, the agent of
each instruction, and the textual syntax of a schedule line (R72), written and read. -/

namespace Sys2Proof

/-- Bits 31:28 of a command word (R61). -/
def opOf (w : Word) : BitVec 4 := w.extractLsb' 28 4

/-- Bits 27:16 of a command word, which must be 0 (R61). -/
def zeroOf (w : Word) : BitVec 12 := w.extractLsb' 16 12

/-- Bits 15:0 of a command word, the number of segments (R61, R65). -/
def nsegOf (w : Word) : BitVec 16 := w.extractLsb' 0 16

/-- Why a list of words is not read (R71). -/
inductive DecodeError where
  /-- There is no command word at all. -/
  | noCommandWord
  /-- The word is none of the table's: a reserved `op`, a `zero` field not 0, or an `nseg` not 0 outside SUBMIT. -/
  | reservedWord
  /-- A SUBMIT with fewer than `2 * nseg` payload words. -/
  | shortFrame
  deriving DecidableEq, Repr

/-- What a row of the opcode table stands for: an instruction of one word, or SUBMIT, which has a payload. -/
inductive Form where
  | oneWord (i : Instr)
  | submit
  deriving DecidableEq, Repr

/-- A row of the opcode table: the word `w` is the row's when `w &&& mask = pattern`. -/
structure Row where
  pattern : Word
  mask : Word
  form : Form
  deriving DecidableEq, Repr

/-- The opcode table as R62 gives it, match and mask. -/
def opcodeTable : List Row :=
  [ { pattern := 0x00000000, mask := 0xFFFFFFFF, form := .oneWord .init },
    { pattern := 0x10000000, mask := 0xFFFF0000, form := .submit },
    { pattern := 0x20000000, mask := 0xFFFFFFFF, form := .oneWord .start },
    { pattern := 0x30000000, mask := 0xFFFFFFFF, form := .oneWord .stop },
    { pattern := 0x40000000, mask := 0xFFFFFFFF, form := .oneWord .status },
    { pattern := 0x50000000, mask := 0xFFFFFFFF, form := .oneWord .capacity },
    { pattern := 0x80000000, mask := 0xFFFFFFFF, form := .oneWord .periodElapsed },
    { pattern := 0x90000000, mask := 0xFFFFFFFF, form := .oneWord .isrTe },
    { pattern := 0xA0000000, mask := 0xFFFFFFFF, form := .oneWord .isrFpe } ]

/-- The word is one of the row's. -/
def Row.accepts (r : Row) (w : Word) : Bool := w &&& r.mask == r.pattern

/-- The payload of a SUBMIT: `n` segments, each its count word and then its frequency word (R63, R65), and the
words after them; none where words are missing. -/
def readSegments : Nat → List Word → Option (List Segment × List Word)
  | 0, ws => some ([], ws)
  | n + 1, c :: f :: ws => (readSegments n ws).map fun p => ({ count := c, frequency := f } :: p.1, p.2)
  | _ + 1, _ => none

/-- The instruction at the front of a list of words and the words after it, or why there is none (R62 to R65, R71).
A word with `op` 0x8, 0x9 or 0xA is read as the step label it is (R70); that HOST may not send one is
`Sys2Proof.Machine.fetchHost`'s to say. -/
def decode : List Word → Except DecodeError (Instr × List Word)
  | [] => .error .noCommandWord
  | w :: ws =>
    match opcodeTable.find? fun r => r.accepts w with
    | none => .error .reservedWord
    | some r =>
      match r.form with
      | .oneWord i => .ok (i, ws)
      | .submit =>
        match readSegments (nsegOf w).toNat ws with
        | none => .error .shortFrame
        | some (segs, rest) => .ok (.submit segs, rest)

/-- How many words the frame has that starts with this word (R64). -/
def frameLength (w : Word) : Nat := if opOf w = 0x1 then 1 + 2 * (nsegOf w).toNat else 1

/-- A command word from its three fields (R61), the `zero` field 0. -/
def commandWord (op : BitVec 4) (nseg : BitVec 16) : Word := op ++ (0 : BitVec 12) ++ nseg

/-- The payload words of a segment list (R63). -/
def payload (segs : List Segment) : List Word := segs.flatMap fun g => [g.count, g.frequency]

/-- The words of an instruction (R61 to R63, R70); for a well-formed one, decoding gives it back. -/
def encode : Instr → List Word
  | .init => [commandWord 0x0 0]
  | .submit segs => commandWord 0x1 (BitVec.ofNat 16 segs.length) :: payload segs
  | .start => [commandWord 0x2 0]
  | .stop => [commandWord 0x3 0]
  | .status => [commandWord 0x4 0]
  | .capacity => [commandWord 0x5 0]
  | .periodElapsed => [commandWord 0x8 0]
  | .isrTe => [commandWord 0x9 0]
  | .isrFpe => [commandWord 0xA 0]

/-- Whose step the instruction is (R156). -/
def Instr.agent : Instr → Agent
  | .init => .host
  | .submit _ => .host
  | .start => .host
  | .stop => .host
  | .status => .host
  | .capacity => .host
  | .periodElapsed => .timer
  | .isrTe => .isrTe
  | .isrFpe => .isrFpe

/-- The instruction is a HOST operation, format CMD (R60). -/
def Instr.isCommand (i : Instr) : Bool := i.agent == .host

/-- One segment as R72 writes it. -/
def Segment.text (g : Segment) : String :=
  " (" ++ toString g.count.toNat ++ "," ++ toString g.frequency.toNat ++ ")"

/-- The instruction as a line of a schedule (R72). -/
def Instr.text : Instr → String
  | .init => "init"
  | .submit segs => segs.foldl (fun t g => t ++ g.text) "submit"
  | .start => "start"
  | .stop => "stop"
  | .status => "status"
  | .capacity => "capacity"
  | .periodElapsed => "tick"
  | .isrTe => "isr.te"
  | .isrFpe => "isr.fpe"

/-- A decimal number at the front of a text and the text after it; none where no digit stands there (R72). -/
def readDecimal : List Char → Option (Nat × List Char) :=
  let rec digits (n : Nat) : List Char → Nat × List Char
    | [] => (n, [])
    | c :: cs => if c.isDigit then digits (10 * n + (c.toNat - '0'.toNat)) cs else (n, c :: cs)
  fun cs => if (cs.headD ' ').isDigit then some (digits 0 cs) else none

/-- A pair `(count,frequency)` of R72; each is a `u32` (R5, R35). -/
def readPair : List Char → Option Segment
  | '(' :: cs =>
    match readDecimal cs with
    | some (c, ',' :: more) =>
      match readDecimal more with
      | some (f, [')']) => if c < 2 ^ 32 ∧ f < 2 ^ 32 then some ⟨BitVec.ofNat 32 c, BitVec.ofNat 32 f⟩ else none
      | _ => none
    | _ => none
  | _ => none

/-- The pairs of a `submit` line, in order. -/
def readPairs : List (List Char) → Option (List Segment)
  | [] => some []
  | w :: ws =>
    match readPair w, readPairs ws with
    | some g, some gs => some (g :: gs)
    | _, _ => none

/-- A line without its comment and without its result (R72). -/
def stripLine : List Char → List Char
  | [] => []
  | ';' :: _ => []
  | '-' :: '>' :: _ => []
  | c :: cs => c :: stripLine cs

/-- The words of a line, `word` the letters of the word being read, last first. -/
def splitWords (word : List Char) : List Char → List (List Char)
  | [] => if word = [] then [] else [word.reverse]
  | c :: cs =>
    if c.isWhitespace then (if word = [] then splitWords [] cs else word.reverse :: splitWords [] cs)
    else splitWords (c :: word) cs

/-- The instruction a line of a schedule names (R72); none where it names none. -/
def Instr.ofText (line : String) : Option Instr :=
  match splitWords [] (stripLine line.toList) with
  | [] => none
  | w :: ws =>
    if w = "submit".toList then (readPairs ws).map .submit
    else if ws ≠ [] then none
    else if w = "init".toList then some .init
    else if w = "start".toList then some .start
    else if w = "stop".toList then some .stop
    else if w = "status".toList then some .status
    else if w = "capacity".toList then some .capacity
    else if w = "tick".toList then some .periodElapsed
    else if w = "isr.te".toList then some .isrTe
    else if w = "isr.fpe".toList then some .isrFpe
    else none

/-- The words of the instruction that starts with the low `nbits` bits of `w`, bit 0 the least significant bit of the
first word, a later word's bits counted on from it: the given words, then words of zeros up to the length R64
reads from the first word. -/
def tableFrame (nbits w : Nat) : List Word :=
  let given := (List.range ((nbits + 31) / 32)).map fun k => BitVec.ofNat 32 ((w % 2 ^ nbits) >>> (32 * k))
  match given with
  | [] => []
  | first :: more => first :: (more ++ List.replicate (frameLength first - 1 - more.length) 0).take (frameLength first - 1)

/-- The instruction the decoder reads from the word `w` of `nbits` bits, operand words beyond them 0; none where
the decoder refuses it. -/
def decodeTableWord (nbits w : Nat) : Option Instr :=
  match decode (tableFrame nbits w) with
  | .ok (i, _) => some i
  | .error _ => none

end Sys2Proof
end

