-- ==== Sys2Proof/Config.lean ====
section
/-! DEFINITION. What one instance of the hardware fixes (R2 to R7) and the free value that chooses among enabled agents. -/

namespace Sys2Proof

/-- Whether the transfer device delivers a transfer-exhausted event when it is configured to stream zero
values (R6, D23): an open parameter; a claim holds for both. -/
inductive ZeroLengthStream where
  | never
  | fires
  deriving DecidableEq, Repr, Inhabited

/-- The configuration of one instance. `TOF` and `TPT` are held as their distance above the least legal
value, so that every value of this type is a legal configuration of R3 and R4 (log 7). -/
structure Config where
  /-- `TOF - 40000` (R3: `40000 <= TOF <= 6553699`). -/
  tofAbove : Fin 6513700
  /-- `TPT - floor(TOF / 100)` (R4: `TPT >= floor(TOF / F_MIN)`; no upper bound, log 8). -/
  tptAbove : Nat
  /-- `ZERO_LENGTH_STREAM` (R6). -/
  zeroLengthStream : ZeroLengthStream
  /-- `DUTY` (R7) as a pair (active part, whole); no rule reads it (log 9). -/
  duty : Nat × Nat
  deriving DecidableEq, Repr, Inhabited

/-- `TOF`, TimerOverflowFrequency (R2, R3). -/
def Config.tof (c : Config) : Nat := 40000 + c.tofAbove.val

/-- `TPT`, timer_period_ticks (R4). -/
def Config.tpt (c : Config) : Nat := c.tof / 100 + c.tptAbove

/-- The configuration with the given parameters, or none where R3 or R4 is broken: such an instance is not
made (U14; the refusal is `Sys2Proof.Machine.instantiate`). -/
def Config.ofParams (tof tpt : Nat) (zls : ZeroLengthStream) (duty : Nat × Nat) : Option Config :=
  if h : 40000 ≤ tof ∧ tof ≤ 6553699 ∧ tof / 100 ≤ tpt then
    some { tofAbove := ⟨tof - 40000, by omega⟩, tptAbove := tpt - tof / 100,
           zeroLengthStream := zls, duty := duty }
  else none

/-- The reference configuration of the spec's test vectors (R8: TOF and TPT), with either value of `ZERO_LENGTH_STREAM`.
Not a value of the real hardware. R8 names no `DUTY` and N9 gives none: DESIGN CHOICE, the pair (1, 2) stands only to fill the
field, which no step reads (log 9). -/
def Config.reference (zls : ZeroLengthStream) : Config :=
  { tofAbove := 960000, tptAbove := 55536, zeroLengthStream := zls, duty := (1, 2) }

/-- The configuration of the instance at hand: any legal one (R2, R4, R6, R7; log 7). No body. -/
opaque Config.chosen : Config

/-- The free value behind the choice between a pending handler and the timer where the schedule is silent (R156; log 2):
how many periods elapse before the `n`-th handler runs. Any number, but a number (R157). No body. -/
opaque Config.freeTurn : Nat → Nat

end Sys2Proof
end

