-- ==== Sys2Proof/Machine/State.lean ====
section
/-! DEFINITION. The state of the machine: the spec's tuple (R10), and beside it the model's own fields, which are
the configuration it is an instance of, the schedule still to come, the responses sent, and a counter of free
choices. Then the reasons a step can stop, and the state after reset (R36, R165, R166). -/

namespace Sys2Proof.Machine

/-- EngineState (R11). -/
inductive EngineState where
  | ready
  | busy
  deriving DecidableEq, Repr

/-- The output mode of the timer (R24). -/
inductive OutMode where
  | forcedLow
  | pwm
  deriving DecidableEq, Repr

/-- The context a frame is issued from (R152). -/
inductive Context where
  | caller
  | interrupt
  deriving DecidableEq, Repr

/-- An entry of the schedule (R60, R156): a frame HOST sends, with the context it is issued from, or the label of an
internal step (R70). Both are words; fetching decodes them. -/
inductive Turn where
  | host (ctx : Context) (frame : List Word)
  | internal (label : Word)
  deriving DecidableEq, Repr

/-- The TransferBuffer's storage (R13) as a list of (slot index, contents) in one canonical form
(`Sys2Proof.Machine.Memory.wf`); a slot not listed holds `Sys2Proof.Machine.Memory.unlisted`. -/
abbrev Memory := List (Nat × Slot)

/-- The whole state. The first seventeen fields are R10's tuple; the last five are the model's (log 1, 2, 6, 7). -/
structure State where
  /-- EngineState, R11. -/
  state : EngineState
  /-- PendingFlag, R12. -/
  pending : Bool
  /-- The TransferBuffer's slots, R13. -/
  buf : Memory
  /-- The valid length of the TransferBuffer, R14. -/
  len : Nat
  /-- INIT has run since reset, R18. -/
  initialised : Bool
  /-- The timer's reload register, R22. -/
  timReload : Slot
  /-- The counter enable, R23. -/
  timRunning : Bool
  /-- The output mode, R24. -/
  timOut : OutMode
  /-- The period-elapsed interrupt enable, R25. -/
  timPeIrqEn : Bool
  /-- The fixed period-tick count set by INIT, R26. -/
  timPeriod : Nat
  /-- The channel enable of the transfer device, R27. -/
  xfEn : Bool
  /-- The index of the next slot to stream, R28. -/
  xfSrc : Nat
  /-- How many slots are still to be streamed, R29. -/
  xfRem : Nat
  /-- The compare output is routed to the pin, R31. -/
  gpioRouted : Bool
  /-- The transfer-exhausted event is raised and not yet handled, R32. -/
  tePending : Bool
  /-- The final-period-elapsed event is raised and not yet handled, R33. -/
  fpePending : Bool
  /-- The DividerValues of the periods completed since reset, oldest first, R34. -/
  emitted : List Slot
  /-- MODEL: the configuration of this instance (R2 to R7, R169); no step writes it (log 7). -/
  cfg : Config
  /-- MODEL: the schedule still to come, next entry first (R156, log 1). -/
  sched : List Turn
  /-- MODEL: the response words sent to HOST, oldest first (R66, R75, log 6). -/
  responses : List Word
  /-- MODEL: how many free choices between a pending handler and the timer have been used up (log 2). -/
  freeTurns : Nat
  /-- MODEL: how many periods the free choice now in use has let through (log 2). -/
  passedOver : Nat
  deriving DecidableEq, Repr

/-- Why the machine stops with a fault: the one fault of R139. -/
inductive Fault where
  /-- Raised by START when a buffer of length 0 is staged (R107, R139, U1). Safe: the spec's own model fault. -/
  | startEmptyBuffer
  deriving DecidableEq, Repr

/-- Why a step has no meaning. -/
inductive Refusal where
  /-- Raised by `exec` for an instruction without a meaning in this model; no arm uses it. Safe. -/
  | notModelled (mnemonic : String)
  /-- Raised by fetching a frame or label of R71, on the command port or in the schedule (R140, U5). Safe. -/
  | reservedEncoding
  /-- Raised by every HOST operation but INIT before INIT has run (R140, U3). Safe. -/
  | uninitialised
  /-- Raised by INIT when it has already run (R101, R140, U4). Safe. -/
  | repeatedInit
  /-- Raised by fetching a HOST operation issued from a handler (R140, R153, U11). Safe. -/
  | wrongContext
  /-- Raised by `Sys2Proof.Machine.instantiate` for parameters outside R3 or R4 (R140, U14). Safe. -/
  | badConfiguration
  /-- Raised by PERIOD_ELAPSED when it would stream a slot with index 2560 or more: R46 says that no step computes such an
  index and that there is no fault for one, so the step has no meaning there. No state a run reaches raises it. Safe (log 13). -/
  | noSuchSlot
  /-- Raised by a meaning where R156 gives its agent no step in this state: a HOST operation while an event is pending (it
  waits; `step` never runs it there), a period of a halted timer, a handler without its event. Safe (log 4). -/
  | notEnabled (agent : Agent)
  deriving DecidableEq, Repr

/-- The state right after reset (R36, R165). The spec leaves `buf`, `timReload` and `timPeriod` unspecified (R166): the
values here are the model's DESIGN CHOICE (log 10, log 11), and the configuration is any legal one (log 7). -/
def State.reset : State :=
  { state := .ready
    pending := false
    buf := []
    len := 0
    initialised := false
    timReload := 0
    timRunning := false
    timOut := .forcedLow
    timPeIrqEn := false
    timPeriod := 0
    xfEn := false
    xfSrc := 0
    xfRem := 0
    gpioRouted := false
    tePending := false
    fpePending := false
    emitted := []
    cfg := Config.chosen
    sched := []
    responses := []
    freeTurns := 0
    passedOver := 0 }

end Sys2Proof.Machine
end

