-- ==== Sys2Proof/Machine/Flags.lean ====
section
/-! DEFINITION. Status codes and response words (R66, R67, R69), the event lines (R76), and when each event is raised
(R108, R126, R127). -/

namespace Sys2Proof.Machine

/-- The five values of the Status type (R67). `error` is never returned. -/
inductive Status where
  | ok
  | busy
  | overflow
  | ready
  | error
  deriving DecidableEq, Repr

/-- The Status code (R67). -/
def Status.code : Status → BitVec 3
  | .ok => 0
  | .busy => 1
  | .overflow => 2
  | .ready => 3
  | .error => 4

/-- A response word from its fields: `value` 31:16, zeros 15:3, `status` 2:0 (R66). -/
def responseWord (value : BitVec 16) (status : BitVec 3) : Word := value ++ (0 : BitVec 13) ++ status

/-- The response that carries a Status (R66, R69). -/
def statusResponse (st : Status) : Word := responseWord 0 st.code

/-- The response to INIT and STOP, which have no result (R69). -/
def voidResponse : Word := responseWord 0 0

/-- The response that carries a count (R66, R69). -/
def countResponse (n : Nat) : Word := responseWord (BitVec.ofNat 16 n) 0

/-- What STATUS reports (R111). -/
def EngineState.status : EngineState → Status
  | .ready => .ready
  | .busy => .busy

/-- The two event lines: `ev[0]` is the transfer-exhausted latch, `ev[1]` the final-period-elapsed latch (R76). -/
def State.ev (s : State) : BitVec 2 := BitVec.ofBool s.fpePending ++ BitVec.ofBool s.tePending

/-- START raises the transfer-exhausted event itself when it leaves nothing to stream and the device fires on a stream
of zero values (R108). -/
def teRaisedByStart (zls : ZeroLengthStream) (remaining : Nat) : Bool :=
  decide (remaining = 0) && decide (zls = .fires)

/-- Streaming raises the transfer-exhausted event when it leaves nothing to stream (R126). -/
def teRaisedByStream (remaining : Nat) : Bool := decide (remaining = 0)

/-- An elapsed period raises the final-period-elapsed event when the interrupt is enabled as the step begins (R127). -/
def fpeRaisedByElapse (irqEn : Bool) : Bool := irqEn

end Sys2Proof.Machine
end

