-- ==== Sys2Proof/Machine/Operands.lean ====
section
/-! DEFINITION. The operand computations: CLAMP and DIVIDER (R80 to R87), the exact total of a segment list (R91), the
slots it expands to (R93), and the length of a period (R130). -/

namespace Sys2Proof.Machine

/-- `F_MIN`, in hertz (R1). -/
def fMin : Nat := 100

/-- `F_MAX`, in hertz (R1). -/
def fMax : Nat := 20000

/-- `MAX_PULSES`, the number of slots of the TransferBuffer (R1, R9). -/
def maxPulses : Nat := 2560

/-- CLAMP (R80). -/
def clamp (f : Nat) : Nat := if f < fMin then fMin else if f > fMax then fMax else f

/-- DIVIDER (R82): the quotient is exact in `Nat`; under R3 the result fits its 16 bits (R83). -/
def divider (c : Config) (frequency : Word) : Slot :=
  BitVec.ofNat 16 (c.tof / clamp frequency.toNat - 1)

/-- The exact sum of the counts (R91): it never wraps (D4, log 12). -/
def totalCount : List Segment → Nat
  | [] => 0
  | g :: gs => g.count.toNat + totalCount gs

/-- The slots a segment list expands to, in order: each segment's divider value, `count` times (R93, R94). -/
def expand (c : Config) : List Segment → List Slot
  | [] => []
  | g :: gs => List.replicate g.count.toNat (divider c g.frequency) ++ expand c gs

/-- How many overflows of the timer a period governed by the value lasts (R130): `v + 1`, each `1 / TOF` seconds. -/
def periodOverflows (v : Slot) : Nat := v.toNat + 1

end Sys2Proof.Machine
end

