-- ==== Sys2Proof/Machine/Ops.lean ====
section
/-! DEFINITION. The named operations the meanings are written over: the slots of the TransferBuffer (R40 to R46), BUILD
(R90), which agent has a step (R156), the guards of a HOST operation (R100), and the group of writes each step makes.
The hardware has no exception entry and no return from one (R135, R148, R149): what stands in their place is the
acknowledgement of an event by its handler (`State.ackTe`, `State.ackFpe`) and the writes STOP and the completion
handler share (`State.haltEmission`). -/

namespace Sys2Proof.Machine

/-- What a slot holds that the memory does not list. The spec leaves it unspecified (R166): DESIGN CHOICE (log 10). -/
def Memory.unlisted : Slot := 0

/-- `buf[i]` (R41). -/
def Memory.read : Memory → Nat → Slot
  | [], _ => Memory.unlisted
  | (j, v) :: m, i => if j = i then v else Memory.read m i

/-- `buf[i] <- v` (R41), keeping the canonical form: a slot that holds the unlisted value is not listed. -/
def Memory.write : Memory → Nat → Slot → Memory
  | [], i, v => if v = Memory.unlisted then [] else [(i, v)]
  | (j, u) :: m, i, v =>
    if i < j then (if v = Memory.unlisted then (j, u) :: m else (i, v) :: (j, u) :: m)
    else if i = j then (if v = Memory.unlisted then m else (i, v) :: m)
    else (j, u) :: Memory.write m i v

/-- Writes consecutive slots from `pos` on, in order (R93). -/
def Memory.writeFrom : Memory → Nat → List Slot → Memory
  | m, _, [] => m
  | m, pos, v :: vs => Memory.writeFrom (Memory.write m pos v) (pos + 1) vs

/-- The list is canonical from index `lo` on: indices strictly rising and slots of the buffer, no unlisted value. -/
def Memory.wfFrom : Nat → Memory → Bool
  | _, [] => true
  | lo, (i, v) :: m =>
    decide (lo ≤ i) && decide (i < maxPulses) && decide (v ≠ Memory.unlisted) && Memory.wfFrom (i + 1) m

/-- The canonical form of the memory. -/
def Memory.wf (m : Memory) : Bool := Memory.wfFrom 0 m

/-- BUILD (R90): the buffer and the length it leaves, or none for Overflow, where nothing is written (R92). -/
def build (c : Config) (segs : List Segment) (m : Memory) : Option (Memory × Nat) :=
  if totalCount segs > maxPulses then none
  else some (Memory.writeFrom m 0 (expand c segs), totalCount segs)

/-- The agent has a step in this state (R156; HOST's further guards are `hostOp`'s). -/
def enabled : Agent → State → Bool
  | .host, s => !s.tePending && !s.fpePending
  | .timer, s => s.timRunning
  | .isrTe, s => s.tePending
  | .isrFpe, s => s.fpePending && !s.tePending

/-- The handler that has a step: ISR_TE before ISR_FPE (R147, R156). -/
def pendingHandler (s : State) : Option Instr :=
  if s.tePending then some .isrTe else if s.fpePending then some .isrFpe else none

/-- Runs an agent's step where the agent has one (R156), and refuses it elsewhere (log 4). -/
def asAgent (a : Agent) (s : State) (k : State → Host.Outcome State Fault Refusal) :
    Host.Outcome State Fault Refusal :=
  if enabled a s then k s else .refused (.notEnabled a)

/-- Runs a HOST operation other than INIT under the guards of R100: no event pending, and INIT has run. -/
def hostOp (s : State) (k : State → Host.Outcome State Fault Refusal) : Host.Outcome State Fault Refusal :=
  asAgent .host s fun s => if s.initialised then k s else .refused .uninitialised

/-- The engine answers the frame with one response word (R75). -/
def State.respond (s : State) (w : Word) : State := { s with responses := s.responses ++ [w] }

/-- The writes of INIT (R101). -/
def State.initialise (s : State) : State :=
  { s with
    gpioRouted := true
    timPeriod := s.cfg.tpt
    timOut := .forcedLow
    timRunning := false
    timPeIrqEn := false
    xfEn := false
    xfSrc := 0
    xfRem := 0
    tePending := false
    fpePending := false
    state := .ready
    pending := false
    len := 0
    initialised := true }

/-- A buffer is staged (R90, R102). -/
def State.stage (s : State) (m : Memory) (n : Nat) : State := { s with buf := m, len := n, pending := true }

/-- The writes of a START that begins a run (R104, R108). -/
def State.launch (s : State) : State :=
  { s with
    state := .busy
    pending := false
    timPeIrqEn := false
    timReload := Memory.read s.buf 0
    xfSrc := 1
    xfRem := s.len - 1
    xfEn := true
    tePending := s.tePending || teRaisedByStart s.cfg.zeroLengthStream (s.len - 1)
    timOut := .pwm
    timRunning := true }

/-- The three writes of STOP, which are also those of the completion handler: "the same action as `stop()`" (R109, R145). -/
def State.haltEmission (s : State) : State :=
  { s with timOut := .forcedLow, timRunning := false, state := .ready }

/-- A period governed by `timReload` is complete: it is observed, and FPE is raised where enabled (R124, R127). -/
def State.completePeriod (s : State) : State :=
  { s with
    emitted := s.emitted ++ [s.timReload]
    fpePending := s.fpePending || fpeRaisedByElapse s.timPeIrqEn }

/-- The transfer device streams one slot into the reload register (R124 to R126). -/
def State.stream (s : State) (v : Slot) : State :=
  { s with
    timReload := v
    xfSrc := s.xfSrc + 1
    xfRem := s.xfRem - 1
    tePending := s.tePending || teRaisedByStream (s.xfRem - 1) }

/-- The transfer-exhausted handler's entry acknowledges its event (R144, R148). -/
def State.ackTe (s : State) : State := { s with tePending := false }

/-- The final-period-elapsed handler's entry acknowledges its event (R145, R148). -/
def State.ackFpe (s : State) : State := { s with fpePending := false }

/-- Arms the timer's period-elapsed interrupt (R144). -/
def State.armPeriodIrq (s : State) : State := { s with timPeIrqEn := true }

/-- The state after reset of an instance with the given parameters; parameters outside R3 or R4 make no instance
(R140, U14). -/
def instantiate (tof tpt : Nat) (zls : ZeroLengthStream) (duty : Nat × Nat) : Except Refusal State :=
  match Config.ofParams tof tpt zls duty with
  | none => .error .badConfiguration
  | some c => .ok { State.reset with cfg := c }

end Sys2Proof.Machine
end

