-- ==== Sys2Proof/Machine/Engine.lean ====
section
/-! DEFINITION. The six operations of the command interface (R100 to R114). -/

namespace Sys2Proof.Machine

/-- INIT (R101): taken once, with no event pending (R100). -/
def execInit (s : State) : Host.Outcome State Fault Refusal :=
  asAgent .host s fun s =>
    if s.initialised then .refused .repeatedInit
    else .next (s.initialise.respond voidResponse)

/-- SUBMIT (R102, R103): Busy is tested first; then BUILD stages the buffer or answers Overflow. -/
def execSubmit (segs : List Segment) (s : State) : Host.Outcome State Fault Refusal :=
  hostOp s fun s =>
    match s.state with
    | .busy => .next (s.respond (statusResponse .busy))
    | .ready =>
      match build s.cfg segs s.buf with
      | none => .next (s.respond (statusResponse .overflow))
      | some (m, n) => .next ((s.stage m n).respond (statusResponse .ok))

/-- START (R104 to R108). -/
def execStart (s : State) : Host.Outcome State Fault Refusal :=
  hostOp s fun s =>
    match s.state with
    | .busy => .next (s.respond (statusResponse .busy))
    | .ready =>
      if s.pending then
        if s.len = 0 then .fault .startEmptyBuffer
        else .next (s.launch.respond (statusResponse .ok))
      else .next (s.respond (statusResponse .overflow))

/-- STOP (R109, R110). -/
def execStop (s : State) : Host.Outcome State Fault Refusal :=
  hostOp s fun s => .next (s.haltEmission.respond voidResponse)

/-- STATUS (R111, R112). -/
def execStatus (s : State) : Host.Outcome State Fault Refusal :=
  hostOp s fun s => .next (s.respond (statusResponse s.state.status))

/-- CAPACITY (R113). -/
def execCapacity (s : State) : Host.Outcome State Fault Refusal :=
  hostOp s fun s => .next (s.respond (countResponse maxPulses))

end Sys2Proof.Machine
end

