-- ==== Sys2Proof/Machine/Handlers.lean ====
section
/-! DEFINITION. The two completion handlers (R144, R145). -/

namespace Sys2Proof.Machine

/-- ISR_TE (R144). -/
def execIsrTe (s : State) : Host.Outcome State Fault Refusal :=
  asAgent .isrTe s fun s => .next s.ackTe.armPeriodIrq

/-- ISR_FPE (R145). -/
def execIsrFpe (s : State) : Host.Outcome State Fault Refusal :=
  asAgent .isrFpe s fun s => .next s.ackFpe.haltEmission

end Sys2Proof.Machine
end

