-- ==== Sys2Proof/Machine/Timer.lean ====
section
/-! DEFINITION. The step of the TIMER agent, with the transfer it triggers (R123 to R128). -/

namespace Sys2Proof.Machine

/-- PERIOD_ELAPSED (R124): the period is observed, FPE is raised where enabled, and one slot is streamed where the channel is
enabled and has one left; otherwise the next period repeats the value (R128). -/
def execPeriodElapsed (s : State) : Host.Outcome State Fault Refusal :=
  asAgent .timer s fun s =>
    if s.xfEn && decide (0 < s.xfRem) then
      if s.xfSrc < maxPulses then .next (s.completePeriod.stream (Memory.read s.buf s.xfSrc))
      else .refused .noSuchSlot
    else .next s.completePeriod

end Sys2Proof.Machine
end

