-- ==== Sys2Proof/Machine/Dispatch.lean ====
section
/-! DEFINITION. One arm per instruction. -/

namespace Sys2Proof.Machine

def exec (i : Instr) (s : State) : Host.Outcome State Fault Refusal :=
  match i with
  | .init => Sys2Proof.Machine.execInit s
  | .submit segs => Sys2Proof.Machine.execSubmit segs s
  | .start => Sys2Proof.Machine.execStart s
  | .stop => Sys2Proof.Machine.execStop s
  | .status => Sys2Proof.Machine.execStatus s
  | .capacity => Sys2Proof.Machine.execCapacity s
  | .periodElapsed => Sys2Proof.Machine.execPeriodElapsed s
  | .isrTe => Sys2Proof.Machine.execIsrTe s
  | .isrFpe => Sys2Proof.Machine.execIsrFpe s

end Sys2Proof.Machine
end

