-- ==== Sys2Proof/Machine/Fetch.lean ====
section
/-! DEFINITION. Which step comes next (R100, R147, R150, R156): what the schedule's next entry asks for, with pending
handlers before HOST, and a free but fair choice among the enabled internal agents where the schedule is empty (R157). -/

namespace Sys2Proof.Machine

/-- What fetching finds. -/
inductive Fetched where
  /-- No agent has a step to take: the machine waits for HOST. -/
  | idle
  /-- The instruction to run, and the state it runs in. -/
  | run (i : Instr) (s : State)
  /-- The entry has no meaning. -/
  | refuse (r : Refusal)
  deriving DecidableEq, Repr

/-- The schedule after a frame was read: words the frame's length (R64) leaves over are the next frame. -/
def requeue (ctx : Context) (left : List Word) (rest : List Turn) : List Turn :=
  match left with
  | [] => rest
  | w :: ws => .host ctx (w :: ws) :: rest

/-- HOST's turn when no event is pending: the frame is decoded (R71; an internal label is reserved on the command port,
R70) and must come from the caller context (R153). -/
def fetchHost (ctx : Context) (frame : List Word) (rest : List Turn) (s : State) : Fetched :=
  match decode frame with
  | .error _ => .refuse .reservedEncoding
  | .ok (i, left) =>
    if i.isCommand then
      match ctx with
      | .caller => .run i { s with sched := requeue ctx left rest }
      | .interrupt => .refuse .wrongContext
    else .refuse .reservedEncoding

/-- An internal step the schedule names by its label (R70); a command word is no label. -/
def fetchInternal (label : Word) (rest : List Turn) (s : State) : Fetched :=
  match decode [label] with
  | .error _ => .refuse .reservedEncoding
  | .ok (i, _) => if i.isCommand then .refuse .reservedEncoding else .run i { s with sched := rest }

/-- The next step where the schedule is silent: a pending handler or a period of the running timer, as the free value has it. The
free value bounds the periods that go first, so that no agent is passed over for ever (R156, R157, log 2). -/
def fetchUnscheduled (s : State) : Fetched :=
  match pendingHandler s with
  | some h =>
    if s.timRunning && decide (s.passedOver < Config.freeTurn s.freeTurns) then
      .run .periodElapsed { s with passedOver := s.passedOver + 1 }
    else .run h { s with passedOver := 0, freeTurns := s.freeTurns + 1 }
  | none => if s.timRunning then .run .periodElapsed s else .idle

/-- What the machine does next. -/
def fetch (s : State) : Fetched :=
  match s.sched with
  | [] => fetchUnscheduled s
  | .host ctx frame :: rest =>
    match pendingHandler s with
    | some h => .run h s
    | none => fetchHost ctx frame rest s
  | .internal label :: rest => fetchInternal label rest s

/-- The schedule entry for the instruction whose bits are `w` (spec/opcode_table.json's numbering): a label where the
decoder reads an internal step, else a frame HOST sends from the caller context. -/
def tableTurn (nbits w : Nat) : Turn :=
  match decode (tableFrame nbits w) with
  | .ok (i, _) =>
    if i.isCommand then .host .caller (tableFrame nbits w) else .internal ((tableFrame nbits w).headD 0)
  | .error _ => .host .caller (tableFrame nbits w)

end Sys2Proof.Machine
end

