-- ==== Sys2Proof/Machine/Step.lean ====
section
/-! DEFINITION. One step of the machine: what fetching finds is run. -/

namespace Sys2Proof.Machine

/-- One step (R156). Where no agent has a step the machine waits and nothing changes. -/
def step (s : State) : Host.Outcome State Fault Refusal :=
  match fetch s with
  | .idle => .next s
  | .run i s' => exec i s'
  | .refuse r => .refused r

/-- The state with that instruction placed as the next entry of the schedule, before the entries it already has. -/
def State.withFetchWord (s : State) (nbits w : Nat) : State :=
  { s with sched := tableTurn nbits w :: s.sched }

end Sys2Proof.Machine
end

