-- ==== Sys2Proof/Safety.lean ====
section
/-! DEFINITION. The terms in which claims about the engine are stated: the invariants of R37, quiescence (R158), the
assumption PROMPT_SERVICE (R151), the position of a run in its buffer (R129), the work a run has left and fairness (R157), and
the schedules of whole runs. -/

namespace Sys2Proof.Machine

/-- The invariant of a DividerValue (R16): at least 1 and at most `TPT - 1`; its 16 bits are its type. -/
def LegalDivider (c : Config) (v : Slot) : Prop := 1 ≤ v.toNat ∧ v.toNat ≤ c.tpt - 1

/-- Every element of R10's tuple is at its reset value (R37 item 8); the model's own fields are free. -/
def AtReset (s : State) : Prop :=
  s = { State.reset with
    cfg := s.cfg, sched := s.sched, responses := s.responses, freeTurns := s.freeTurns, passedOver := s.passedOver }

/-- The invariant of the reachable states (R37, with what its items need to be inductive; log 15). -/
structure Inv (s : State) : Prop where
  /-- The memory is canonical. -/
  memory : Memory.wf s.buf = true
  /-- R37 item 1. -/
  length : s.len ≤ maxPulses
  /-- The range of `xf_src` in R10. -/
  source : s.xfSrc ≤ maxPulses
  /-- The range of `xf_rem` in R10. -/
  remaining : s.xfRem ≤ maxPulses - 1
  /-- R37 item 3. -/
  busy_iff_running : s.state = .busy ↔ s.timRunning = true
  /-- R37 item 3, R131. -/
  running_iff_pwm : s.timRunning = true ↔ s.timOut = .pwm
  /-- R114: (Busy, staged) is not reachable. -/
  busy_unstaged : s.state = .busy → s.pending = false
  /-- R37 item 4, while the run lasts. -/
  position : s.state = .busy → s.xfEn = true ∧ 1 ≤ s.xfSrc ∧ s.xfSrc + s.xfRem = s.len
  /-- R37 item 6. -/
  slots : ∀ i, i < s.len → LegalDivider s.cfg (Memory.read s.buf i)
  /-- The value that governs the period in progress is legal (R16, R22). -/
  reload : s.state = .busy → LegalDivider s.cfg s.timReload
  /-- Every value observed is legal (R16, R34). -/
  observed : ∀ v ∈ s.emitted, LegalDivider s.cfg v
  /-- R37 item 7, and when TE is pending. -/
  te : s.tePending = true → s.state = .busy ∧ s.xfRem = 0 ∧ s.timPeIrqEn = false ∧ s.fpePending = false
  /-- When FPE is pending. -/
  fpe : s.fpePending = true → s.state = .busy ∧ s.xfRem = 0 ∧ s.timPeIrqEn = true
  /-- The interrupt is disabled during streaming (R25). -/
  armed : s.state = .busy → s.timPeIrqEn = true → s.xfRem = 0
  /-- What INIT set up stays (R26, R31). -/
  booted : s.initialised = true → s.gpioRouted = true ∧ s.timPeriod = s.cfg.tpt
  /-- R37 item 8. -/
  unbooted : s.initialised = false → AtReset s

/-- No agent but HOST has a step (R158). -/
def Quiescent (s : State) : Prop := s.timRunning = false ∧ s.tePending = false ∧ s.fpePending = false

/-- PROMPT_SERVICE lets the instruction run in this state (R151): no period elapses while an event is pending. A premise
about the platform, no rule of the hardware. -/
def Prompt (s : State) (i : Instr) : Prop := i = .periodElapsed → s.tePending = false ∧ s.fpePending = false

/-- The valid slots of the buffer, in order. -/
def bufferValues (s : State) : List Slot := (List.range s.len).map (Memory.read s.buf)

/-- A busy engine has emitted, after `before`, exactly the slots whose periods are over, and its reload register
holds the slot now playing (R125, R126). -/
def Played (before : List Slot) (s : State) : Prop :=
  s.emitted = before ++ (bufferValues s).take (if s.fpePending then s.xfSrc else s.xfSrc - 1) ∧
  s.timReload = Memory.read s.buf (s.xfSrc - 1) ∧
  (s.xfRem = 0 → s.tePending = true ∨ s.timPeIrqEn = true)

/-- An upper bound on the internal steps that end a run, late periods not counted (R157). -/
def workLeft (s : State) : Nat :=
  match s.state with
  | .ready => 0
  | .busy => if s.fpePending then 1 else if s.timPeIrqEn then 2 else s.xfRem + 3

/-- The two states differ at most in the schedule and in the use of free choices, which are the model's. -/
def SameBut (s s' : State) : Prop :=
  s' = { s with sched := s'.sched, freeTurns := s'.freeTurns, passedOver := s'.passedOver }

/-- One step of an agent takes the first state to the second, whatever the schedule said (R156). -/
def Takes (i : Instr) (s t : State) : Prop := ∃ s', SameBut s s' ∧ exec i s' = .next t

/-- An infinite run (00_scope.md section 6, R156): `who n` is the step taken from `σ n`, or none where no agent acts. -/
structure IsRun (σ : Nat → State) (who : Nat → Option Instr) : Prop where
  acts : ∀ n i, who n = some i → Takes i (σ n) (σ (n + 1))
  waits : ∀ n, who n = none → SameBut (σ n) (σ (n + 1))

/-- Fairness (R157): an agent that stays enabled eventually takes a step. HOST is left out: it is never forced to act (R156). -/
def Fair (σ : Nat → State) (who : Nat → Option Instr) : Prop :=
  ∀ (a : Agent) (n : Nat), a ≠ .host → (∀ m, n ≤ m → enabled a (σ m) = true) →
    ∃ m i, n ≤ m ∧ who m = some i ∧ i.agent = a

/-- `k` steps of the machine, stopping at the first fault or refusal: `Host.Core.run` of `Sys2Proof.core`. -/
def steps : Nat → State → Host.Outcome State Fault Refusal
  | 0, s => .next s
  | k + 1, s =>
    match step s with
    | .next t => steps k t
    | .fault f => .fault f
    | .refused r => .refused r

/-- HOST sends the operation from the caller context. -/
def hostTurn (i : Instr) : Turn := .host .caller (encode i)

/-- The schedule entry for a period of the timer (R70). -/
def tickTurn : Turn := .internal 0x80000000

/-- The schedule entry for the transfer-exhausted handler (R70). -/
def isrTeTurn : Turn := .internal 0x90000000

/-- The schedule entry for the final-period-elapsed handler (R70). -/
def isrFpeTurn : Turn := .internal 0xA0000000

/-- A run of a buffer of `n` slots in which `p` periods elapse before ISR_TE runs and `q` before ISR_FPE runs (R129). -/
def runSchedule (n p q : Nat) : List Turn :=
  [hostTurn .start] ++ List.replicate (n - 1 + p) tickTurn ++ [isrTeTurn] ++ List.replicate (1 + q) tickTurn ++
    [isrFpeTurn]

end Sys2Proof.Machine
end

