-- ==== Sys2Proof/Certificates/Slice0/Obligations.lean ====
section
/-! DEFINITION. The statements for the provers. Each docstring names the rule of spec/ it formalises. -/

open Sys2Proof Sys2Proof.Machine

/-! ### Fetching, decoding, encoding -/

/-- R75, R64, R65 over the model's schedule (log 1, log 5): with no event pending, a step takes HOST's next frame, decodes its
first instruction, and is `exec` of it; the entry is used up, and words past the frame's length are the next frame. -/
def Obligations.StepRunsTheHostFrame : Prop :=
  ∀ (s : State) (frame left : List Word) (rest : List Turn) (i : Instr),
    s.sched = .host .caller frame :: rest → s.tePending = false → s.fpePending = false →
    decode frame = .ok (i, left) → i.isCommand = true →
    step s = exec i { s with sched := if left = [] then rest else .host .caller left :: rest }

/-- R60, R70 over the model's schedule (log 1): a step whose schedule entry is the label of an internal step is `exec` of that step. -/
def Obligations.StepRunsTheInternalLabel : Prop :=
  ∀ (s : State) (label : Word) (left : List Word) (rest : List Turn) (i : Instr),
    s.sched = .internal label :: rest → decode [label] = .ok (i, left) → i.isCommand = false →
    step s = exec i { s with sched := rest }

/-- R150, R147: a pending handler runs before HOST; HOST has no step while an event is pending; ISR_TE goes before ISR_FPE.
That HOST's entry stays in the schedule is the model's choice (log 3), and so is the name of the refusal (log 4). -/
def Obligations.PendingHandlerRunsBeforeHost : Prop :=
  ∀ (s : State),
    (∀ ctx frame rest, s.sched = .host ctx frame :: rest →
      (s.tePending = true → step s = exec .isrTe s) ∧
      (s.tePending = false → s.fpePending = true → step s = exec .isrFpe s)) ∧
    (∀ i : Instr, i.isCommand = true → s.tePending = true ∨ s.fpePending = true →
      exec i s = .refused (.notEnabled .host)) ∧
    (s.tePending = true → exec .isrFpe s = .refused (.notEnabled .isrFpe))

/-- R156: where the schedule is silent, the step is that of some enabled internal agent; where none is enabled the
machine waits unchanged. Which one is a free value, and waiting is the model's choice (log 2). -/
def Obligations.UnscheduledStepIsAnEnabledAgents : Prop :=
  ∀ s : State, s.sched = [] →
    ((s.timRunning = false ∧ s.tePending = false ∧ s.fpePending = false) → step s = .next s) ∧
    ((s.timRunning = true ∨ s.tePending = true ∨ s.fpePending = true) →
      ∃ (i : Instr) (turns passed : Nat),
        ((i = .periodElapsed ∧ s.timRunning = true) ∨ (i = .isrTe ∧ s.tePending = true) ∨
          (i = .isrFpe ∧ s.fpePending = true ∧ s.tePending = false)) ∧
        step s = exec i { s with freeTurns := turns, passedOver := passed })

/-- R156's table: an instruction is refused for want of a step exactly where its agent is not enabled. The refusal and its
name are the model's choice (log 4). -/
def Obligations.AgentsHaveStepsExactlyWhereEnabled : Prop :=
  ∀ (i : Instr) (s : State),
    (exec i s = .refused (.notEnabled i.agent)) ↔
      match i.agent with
      | .host => s.tePending = true ∨ s.fpePending = true
      | .timer => s.timRunning = false
      | .isrTe => s.tePending = false
      | .isrFpe => s.fpePending = false ∨ s.tePending = true

/-- R62, R63 and the frames of 95_test_vectors.md section 2.6: some words and what they decode to. -/
def Obligations.SampleFramesDecode : Prop :=
  decode [0x00000000] = .ok (.init, []) ∧
  decode [0x10000000] = .ok (.submit [], []) ∧
  decode [0x10000002, 0x00000001, 0x00000032, 0x00000001, 0x0000C350] = .ok (.submit [⟨1, 50⟩, ⟨1, 50000⟩], []) ∧
  decode [0x20000000] = .ok (.start, []) ∧
  decode [0x80000000] = .ok (.periodElapsed, []) ∧
  decode [0xA0000000] = .ok (.isrFpe, []) ∧
  decode [0x20010000] = .error .reservedWord ∧
  decode [0x10000002, 0x00000001, 0x000003E8] = .error .shortFrame

/-- R61 to R65, R74: decoding the words of any well-formed instruction, whatever follows them, gives it back, with every
segment at every value. -/
def Obligations.DecodeGivesBackTheEncoded : Prop :=
  ∀ (i : Instr) (rest : List Word), i.wellFormed = true → decode (encode i ++ rest) = .ok (i, rest)

/-- R61 to R65: what decodes is well-formed, and is the encoding of what it decodes to: no two frames share a meaning. -/
def Obligations.EncodeGivesBackTheDecoded : Prop :=
  ∀ (ws rest : List Word) (i : Instr), decode ws = .ok (i, rest) → i.wellFormed = true ∧ ws = encode i ++ rest

/-- R71: on the command port, with no event pending, exactly the five kinds of frame it lists are refused as reserved. -/
def Obligations.ReservedFramesAreRefused : Prop :=
  ∀ (s : State) (w : Word) (ws : List Word) (rest : List Turn),
    s.sched = .host .caller (w :: ws) :: rest → s.tePending = false → s.fpePending = false →
    (step s = .refused .reservedEncoding ↔
      opOf w = 0x6 ∨ opOf w = 0x7 ∨ 0xB ≤ (opOf w).toNat ∨
      opOf w = 0x8 ∨ opOf w = 0x9 ∨ opOf w = 0xA ∨
      zeroOf w ≠ 0 ∨ (opOf w ≠ 0x1 ∧ nsegOf w ≠ 0) ∨
      (opOf w = 0x1 ∧ ws.length < 2 * (nsegOf w).toNat))

/-- R153, R140: a HOST operation issued from a handler is refused as WrongContext, before the question whether INIT has run
(the order is the model's choice, log 20). -/
def Obligations.FrameFromAHandlerIsRefused : Prop :=
  ∀ (s : State) (i : Instr) (rest : List Turn),
    i.wellFormed = true → i.isCommand = true → s.sched = .host .interrupt (encode i) :: rest →
    s.tePending = false → s.fpePending = false → step s = .refused .wrongContext

/-! ### The Divider Calculator -/

/-- R80, R81: CLAMP, its idempotence and its monotonicity. -/
def Obligations.ClampIntoTheRange : Prop :=
  (∀ f, f < 100 → clamp f = 100) ∧ (∀ f, 20000 < f → clamp f = 20000) ∧
  (∀ f, 100 ≤ f → f ≤ 20000 → clamp f = f) ∧
  (∀ f, clamp (clamp f) = clamp f) ∧ (∀ f g, f ≤ g → clamp f ≤ clamp g)

/-- R82: the divider value is the floor of the quotient, less 1, and its 16 bits drop nothing. -/
def Obligations.DividerIsTheQuotientLessOne : Prop :=
  ∀ (c : Config) (f : Word), (divider c f).toNat + 1 = c.tof / clamp f.toNat

/-- R84: the range of DIVIDER, where its ends are taken, and the reference configuration's. -/
def Obligations.DividerRange : Prop :=
  ∀ (c : Config) (f : Word),
    c.tof / 20000 - 1 ≤ (divider c f).toNat ∧ (divider c f).toNat ≤ c.tof / 100 - 1 ∧
    (20000 ≤ f.toNat → (divider c f).toNat = c.tof / 20000 - 1) ∧
    (f.toNat ≤ 100 → (divider c f).toNat = c.tof / 100 - 1) ∧
    1 ≤ (divider c f).toNat ∧ (divider c f).toNat ≤ 65535 ∧ (divider c f).toNat ≤ c.tpt - 1 ∧
    (c.tof = 1000000 → 49 ≤ (divider c f).toNat ∧ (divider c f).toNat ≤ 9999)

/-- R85: DIVIDER is non-increasing, and not strictly decreasing. -/
def Obligations.DividerNeverIncreases : Prop :=
  (∀ (c : Config) (f g : Word), f.toNat ≤ g.toNat → (divider c g).toNat ≤ (divider c f).toNat) ∧
  (∀ c : Config, c.tof = 1000000 → (divider c 19999).toNat = 49 ∧ (divider c 20000).toNat = 49)

/-- R86: DIVIDER absorbs the clamp. -/
def Obligations.DividerAbsorbsTheClamp : Prop :=
  ∀ (c : Config) (f : Word), divider c f = divider c (BitVec.ofNat 32 (clamp f.toNat))

/-- 40_divider_calculator.md section 3, R130: a period of the divider value lasts so many overflows of the timer that the produced
frequency is at least the clamped request, and one overflow more would make it less. -/
def Obligations.ProducedFrequencyMeetsTheRequest : Prop :=
  ∀ (c : Config) (f : Word),
    clamp f.toNat * periodOverflows (divider c f) ≤ c.tof ∧
    c.tof < clamp f.toNat * (periodOverflows (divider c f) + 1)

/-! ### What each operation does -/

/-- R101: INIT, and the refusal of a second one. -/
def Obligations.InitResult : Prop :=
  ∀ s : State, s.tePending = false → s.fpePending = false →
    (s.initialised = true → exec .init s = .refused .repeatedInit) ∧
    (s.initialised = false → exec .init s = .next
      { s with
        gpioRouted := true, timPeriod := s.cfg.tpt, timOut := .forcedLow, timRunning := false, timPeIrqEn := false
        xfEn := false, xfSrc := 0, xfRem := 0, tePending := false, fpePending := false, state := .ready
        pending := false, len := 0, initialised := true, responses := s.responses ++ [0x00000000] })

/-- R18: `initialised` is false after reset and true after INIT, and while it is false every other operation is refused. -/
def Obligations.OperationsBeforeInitAreRefused : Prop :=
  State.reset.initialised = false ∧
  (∀ s t : State, exec .init s = .next t → t.initialised = true) ∧
  (∀ (s : State) (i : Instr), i.isCommand = true → i ≠ .init → s.initialised = false →
    s.tePending = false → s.fpePending = false → exec i s = .refused .uninitialised)

/-- R102, R92, R93, R96: SUBMIT answers Busy while Busy, whatever the list; Overflow when the exact total exceeds 2560, and
nothing is written; else OK: each segment's divider value stands in as many consecutive slots as its count, in order, slots
above the total keep their contents, and everything else is unchanged. -/
def Obligations.SubmitResult : Prop :=
  ∀ (s : State) (segs : List Segment), s.tePending = false → s.fpePending = false → s.initialised = true →
    (s.state = .busy → exec (.submit segs) s = .next { s with responses := s.responses ++ [0x00000001] }) ∧
    (s.state = .ready → 2560 < (segs.map fun g => g.count.toNat).sum →
      exec (.submit segs) s = .next { s with responses := s.responses ++ [0x00000002] }) ∧
    (s.state = .ready → (segs.map fun g => g.count.toNat).sum ≤ 2560 → Memory.wf s.buf = true →
      ∃ m : Memory,
        exec (.submit segs) s = .next
          { s with buf := m, len := (segs.map fun g => g.count.toNat).sum, pending := true
                   responses := s.responses ++ [0x00000000] } ∧
        (∀ pre g post, segs = pre ++ g :: post → ∀ k, k < g.count.toNat →
          Memory.read m ((pre.map fun h => h.count.toNat).sum + k) = divider s.cfg g.frequency) ∧
        (∀ i, (segs.map fun g => g.count.toNat).sum ≤ i → Memory.read m i = Memory.read s.buf i))

/-- R104, R105, R107: START answers Busy while Busy, else Overflow when nothing is staged, else faults on an empty buffer, else
begins the run; nothing else is written. -/
def Obligations.StartResult : Prop :=
  ∀ s : State, s.tePending = false → s.fpePending = false → s.initialised = true →
    (s.state = .busy → exec .start s = .next { s with responses := s.responses ++ [0x00000001] }) ∧
    (s.state = .ready → s.pending = false → exec .start s = .next { s with responses := s.responses ++ [0x00000002] }) ∧
    (s.state = .ready → s.pending = true → s.len = 0 → exec .start s = .fault .startEmptyBuffer) ∧
    (s.state = .ready → s.pending = true → 1 ≤ s.len → exec .start s = .next
      { s with
        state := .busy, pending := false, timPeIrqEn := false, timReload := Memory.read s.buf 0
        xfSrc := 1, xfRem := s.len - 1, xfEn := true
        tePending := decide (s.len - 1 = 0 ∧ s.cfg.zeroLengthStream = .fires)
        timOut := .pwm, timRunning := true, responses := s.responses ++ [0x00000000] })

/-- R109: STOP. -/
def Obligations.StopResult : Prop :=
  ∀ s : State, s.tePending = false → s.fpePending = false → s.initialised = true →
    exec .stop s = .next
      { s with timOut := .forcedLow, timRunning := false, state := .ready, responses := s.responses ++ [0x00000000] }

/-- R110 items 1 and 2: STOP in Ready changes no element, and a second STOP changes none. -/
def Obligations.StopWhileReadyChangesNothing : Prop :=
  (∀ s : State, Inv s → s.state = .ready → s.initialised = true →
    exec .stop s = .next { s with responses := s.responses ++ [0x00000000] }) ∧
  (∀ s t : State, exec .stop s = .next t →
    exec .stop t = .next { t with responses := t.responses ++ [0x00000000] })

/-- R110 item 3, C10: a buffer staged and not started survives STOP, and a following START plays it. -/
def Obligations.StagedBufferSurvivesStop : Prop :=
  ∀ s t : State, exec .stop s = .next t → s.pending = true → 1 ≤ s.len →
    t.buf = s.buf ∧ t.len = s.len ∧
    ∃ u, exec .start t = .next u ∧ u.state = .busy ∧ u.timReload = Memory.read s.buf 0 ∧ u.xfRem = s.len - 1

/-- R103 item 3, R177: a SUBMIT over capacity keeps the staged buffer, and a following START plays the old one. -/
def Obligations.OldBufferPlaysAfterOverflow : Prop :=
  ∀ (s : State) (segs : List Segment), s.tePending = false → s.fpePending = false → s.initialised = true →
    s.state = .ready → s.pending = true → 1 ≤ s.len → 2560 < (segs.map fun g => g.count.toNat).sum →
    ∃ t u, exec (.submit segs) s = .next t ∧ exec .start t = .next u ∧
      t.responses = s.responses ++ [0x00000002] ∧ u.responses = s.responses ++ [0x00000002, 0x00000000] ∧
      u.state = .busy ∧ u.buf = s.buf ∧ u.len = s.len ∧ u.timReload = Memory.read s.buf 0 ∧ u.xfSrc = 1 ∧
      u.xfRem = s.len - 1

/-- R111: STATUS. -/
def Obligations.StatusResult : Prop :=
  ∀ s : State, s.tePending = false → s.fpePending = false → s.initialised = true →
    (s.state = .busy → exec .status s = .next { s with responses := s.responses ++ [0x00000001] }) ∧
    (s.state = .ready → exec .status s = .next { s with responses := s.responses ++ [0x00000003] })

/-- R113: CAPACITY. -/
def Obligations.CapacityResult : Prop :=
  ∀ s : State, s.tePending = false → s.fpePending = false → s.initialised = true →
    exec .capacity s = .next { s with responses := s.responses ++ [0x0A000000] }

/-- R124: PERIOD_ELAPSED is a step only of a running timer; with a slot streamed where the channel has one left, and without.
(That a streamed index is a slot of the buffer is R46; `InvariantRulesOutOtherFaults` says so of every state the invariant holds
of.) -/
def Obligations.PeriodElapsedResult : Prop :=
  ∀ s : State,
    (∀ t, exec .periodElapsed s = .next t → s.timRunning = true) ∧
    (s.timRunning = true → s.xfEn = true → 0 < s.xfRem → s.xfSrc < 2560 →
      exec .periodElapsed s = .next
        { s with
          emitted := s.emitted ++ [s.timReload]
          fpePending := if s.timPeIrqEn = true then true else s.fpePending
          timReload := Memory.read s.buf s.xfSrc, xfSrc := s.xfSrc + 1, xfRem := s.xfRem - 1
          tePending := if s.xfRem = 1 then true else s.tePending }) ∧
    (s.timRunning = true → s.xfEn = false ∨ s.xfRem = 0 →
      exec .periodElapsed s = .next
        { s with
          emitted := s.emitted ++ [s.timReload]
          fpePending := if s.timPeIrqEn = true then true else s.fpePending })

/-- R144: ISR_TE, enabled exactly when its event is pending. -/
def Obligations.IsrTeResult : Prop :=
  ∀ s : State,
    ((∃ t, exec .isrTe s = .next t) ↔ s.tePending = true) ∧
    (s.tePending = true → exec .isrTe s = .next { s with tePending := false, timPeIrqEn := true })

/-- R145: ISR_FPE, enabled exactly when its event is pending and TE is not. -/
def Obligations.IsrFpeResult : Prop :=
  ∀ s : State,
    ((∃ t, exec .isrFpe s = .next t) ↔ s.fpePending = true ∧ s.tePending = false) ∧
    (s.fpePending = true → s.tePending = false → exec .isrFpe s = .next
      { s with fpePending := false, timOut := .forcedLow, timRunning := false, state := .ready })

/-- R76: the event lines. -/
def Obligations.EventLinesAreTheLatches : Prop :=
  ∀ s : State, s.ev.getLsbD 0 = s.tePending ∧ s.ev.getLsbD 1 = s.fpePending

/-! ### What no other step writes -/

/-- R21: which step writes which flag, and to what; a rejected operation writes none. -/
def Obligations.FlagWriters : Prop :=
  ∀ (i : Instr) (s t : State), exec i s = .next t →
    match i with
    | .init =>
      t.state = .ready ∧ t.pending = false ∧ t.tePending = false ∧ t.fpePending = false ∧ t.timRunning = false ∧
        t.timPeIrqEn = false ∧ t.xfEn = false
    | .submit _ =>
      t.state = s.state ∧ t.tePending = s.tePending ∧ t.fpePending = s.fpePending ∧ t.timRunning = s.timRunning ∧
        t.timPeIrqEn = s.timPeIrqEn ∧ t.xfEn = s.xfEn ∧
        t.pending = if t.responses = s.responses ++ [0x00000000] then true else s.pending
    | .start =>
      t.fpePending = s.fpePending ∧
      if t.responses = s.responses ++ [0x00000000] then
        t.state = .busy ∧ t.pending = false ∧ t.timRunning = true ∧ t.timPeIrqEn = false ∧ t.xfEn = true ∧
          t.tePending = if s.len = 1 ∧ s.cfg.zeroLengthStream = .fires then true else s.tePending
      else
        t.state = s.state ∧ t.pending = s.pending ∧ t.tePending = s.tePending ∧ t.timRunning = s.timRunning ∧
          t.timPeIrqEn = s.timPeIrqEn ∧ t.xfEn = s.xfEn
    | .stop =>
      t.state = .ready ∧ t.timRunning = false ∧ t.pending = s.pending ∧ t.tePending = s.tePending ∧
        t.fpePending = s.fpePending ∧ t.timPeIrqEn = s.timPeIrqEn ∧ t.xfEn = s.xfEn
    | .status | .capacity =>
      t.state = s.state ∧ t.pending = s.pending ∧ t.tePending = s.tePending ∧ t.fpePending = s.fpePending ∧
        t.timRunning = s.timRunning ∧ t.timPeIrqEn = s.timPeIrqEn ∧ t.xfEn = s.xfEn
    | .periodElapsed =>
      t.state = s.state ∧ t.pending = s.pending ∧ t.timRunning = s.timRunning ∧ t.timPeIrqEn = s.timPeIrqEn ∧
        t.xfEn = s.xfEn ∧ (s.tePending = true → t.tePending = true) ∧ (s.fpePending = true → t.fpePending = true)
    | .isrTe =>
      t.tePending = false ∧ t.timPeIrqEn = true ∧ t.state = s.state ∧ t.pending = s.pending ∧
        t.fpePending = s.fpePending ∧ t.timRunning = s.timRunning ∧ t.xfEn = s.xfEn
    | .isrFpe =>
      t.fpePending = false ∧ t.state = .ready ∧ t.timRunning = false ∧ t.pending = s.pending ∧
        t.tePending = s.tePending ∧ t.timPeIrqEn = s.timPeIrqEn ∧ t.xfEn = s.xfEn

/-- R43: a slot is written only by a SUBMIT from the caller context while Ready, `len` only with it or by INIT, and INIT writes no
slot. -/
def Obligations.BufferWriters : Prop :=
  (∀ s t : State, step s = .next t →
    ((∃ a, Memory.read t.buf a ≠ Memory.read s.buf a) →
      ∃ frame rest segs left, s.sched = .host .caller frame :: rest ∧ decode frame = .ok (.submit segs, left) ∧
        s.state = .ready) ∧
    (t.len ≠ s.len →
      ∃ frame rest i left, s.sched = .host .caller frame :: rest ∧ decode frame = .ok (i, left) ∧
        (i = .init ∨ ((∃ segs, i = .submit segs) ∧ s.state = .ready)))) ∧
  (∀ s t : State, exec .init s = .next t → t.len = 0 ∧ ∀ a, Memory.read t.buf a = Memory.read s.buf a)

/-- R24, R26, R28, R29, R31, R18, R22: the writers of the other device fields and of `initialised`. -/
def Obligations.DeviceFieldWriters : Prop :=
  ∀ (i : Instr) (s t : State), exec i s = .next t →
    (t.timReload ≠ s.timReload → (i = .start ∧ t.timReload = Memory.read s.buf 0) ∨
      (i = .periodElapsed ∧ t.timReload = Memory.read s.buf s.xfSrc)) ∧
    (t.timOut ≠ s.timOut → (i = .start ∧ t.timOut = .pwm) ∨
      ((i = .stop ∨ i = .isrFpe ∨ i = .init) ∧ t.timOut = .forcedLow)) ∧
    (t.timPeriod ≠ s.timPeriod → i = .init ∧ t.timPeriod = s.cfg.tpt) ∧
    (t.xfSrc ≠ s.xfSrc → (i = .start ∧ t.xfSrc = 1) ∨ (i = .periodElapsed ∧ t.xfSrc = s.xfSrc + 1) ∨
      (i = .init ∧ t.xfSrc = 0)) ∧
    (t.xfRem ≠ s.xfRem → (i = .start ∧ t.xfRem = s.len - 1) ∨ (i = .periodElapsed ∧ t.xfRem + 1 = s.xfRem) ∨
      (i = .init ∧ t.xfRem = 0)) ∧
    (t.gpioRouted ≠ s.gpioRouted → i = .init ∧ t.gpioRouted = true) ∧
    (t.initialised ≠ s.initialised → i = .init ∧ t.initialised = true)

/-- R34: PERIOD_ELAPSED appends the value that governed the period; nothing else writes `emitted`. -/
def Obligations.EmittedGrowsByPeriodsOnly : Prop :=
  ∀ (i : Instr) (s t : State), exec i s = .next t →
    t.emitted = if i = .periodElapsed then s.emitted ++ [s.timReload] else s.emitted

/-- R155: an operation that answers Busy or Overflow as a rejection writes no element. -/
def Obligations.RejectionsWriteNothing : Prop :=
  ∀ (i : Instr) (s t : State) (w : Word), (i = .start ∨ ∃ segs, i = .submit segs) → exec i s = .next t →
    t.responses = s.responses ++ [w] → w = 0x00000001 ∨ w = 0x00000002 →
    t = { s with responses := s.responses ++ [w] }

/-- R68, R69: every operation answers one response word, from its own set; an internal step answers none. -/
def Obligations.ResponsesOfEachOperation : Prop :=
  ∀ (i : Instr) (s t : State), exec i s = .next t →
    match i with
    | .init | .stop => t.responses = s.responses ++ [0x00000000]
    | .submit _ | .start =>
      t.responses = s.responses ++ [0x00000000] ∨ t.responses = s.responses ++ [0x00000001] ∨
        t.responses = s.responses ++ [0x00000002]
    | .status => t.responses = s.responses ++ [0x00000003] ∨ t.responses = s.responses ++ [0x00000001]
    | .capacity => t.responses = s.responses ++ [0x0A000000]
    | .periodElapsed | .isrTe | .isrFpe => t.responses = s.responses

/-- R136, R137, R154: when SUBMIT and START answer each rejection, and that Busy wins. -/
def Obligations.RejectionsExactlyWhen : Prop :=
  (∀ (s t : State) (segs : List Segment), exec (.submit segs) s = .next t →
    (t.responses = s.responses ++ [0x00000001] ↔ s.state = .busy) ∧
    (t.responses = s.responses ++ [0x00000002] ↔
      s.state = .ready ∧ 2560 < (segs.map fun g => g.count.toNat).sum)) ∧
  (∀ s t : State, exec .start s = .next t →
    (t.responses = s.responses ++ [0x00000001] ↔ s.state = .busy) ∧
    (t.responses = s.responses ++ [0x00000002] ↔ s.state = .ready ∧ s.pending = false))

/-- R153, R152: the handlers never write the buffer, its length or the staging, nor any transfer field; only ISR_FPE writes
`state`, and only to Ready; only ISR_TE writes the interrupt enable, and only to true. -/
def Obligations.HandlerFrame : Prop :=
  ∀ (i : Instr) (s t : State), i = .isrTe ∨ i = .isrFpe → exec i s = .next t →
    (∀ a, Memory.read t.buf a = Memory.read s.buf a) ∧ t.len = s.len ∧ t.pending = s.pending ∧
    t.initialised = s.initialised ∧ t.timReload = s.timReload ∧ t.timPeriod = s.timPeriod ∧ t.xfEn = s.xfEn ∧
    t.xfSrc = s.xfSrc ∧ t.xfRem = s.xfRem ∧ t.gpioRouted = s.gpioRouted ∧ t.emitted = s.emitted ∧
    (t.state ≠ s.state → i = .isrFpe ∧ t.state = .ready) ∧
    (t.timPeIrqEn ≠ s.timPeIrqEn → i = .isrTe ∧ t.timPeIrqEn = true) ∧
    (t.timRunning ≠ s.timRunning → i = .isrFpe ∧ t.timRunning = false) ∧
    (t.timOut ≠ s.timOut → i = .isrFpe ∧ t.timOut = .forcedLow)

/-- R169: no step changes the configuration. -/
def Obligations.NoStepChangesTheConfiguration : Prop :=
  ∀ s t : State, step s = .next t → t.cfg = s.cfg

/-- R112, R114: the engine becomes Busy only by a START of a staged buffer that is not empty, and Ready only by
STOP or ISR_FPE. -/
def Obligations.BusyBeginsAndEnds : Prop :=
  ∀ (i : Instr) (s t : State), Inv s → exec i s = .next t →
    (s.state = .ready → t.state = .busy → i = .start ∧ s.pending = true ∧ 1 ≤ s.len) ∧
    (s.state = .busy → t.state = .ready → i = .stop ∨ i = .isrFpe)

/-! ### Reset, invariants, whole runs -/

/-- R165: the state after reset; no agent but HOST has a step, and the only operation accepted is INIT. -/
def Obligations.ResetState : Prop :=
  State.reset.state = .ready ∧ State.reset.pending = false ∧ State.reset.len = 0 ∧
  State.reset.initialised = false ∧ State.reset.timRunning = false ∧ State.reset.timOut = .forcedLow ∧
  State.reset.timPeIrqEn = false ∧ State.reset.xfEn = false ∧ State.reset.xfSrc = 0 ∧ State.reset.xfRem = 0 ∧
  State.reset.gpioRouted = false ∧ State.reset.tePending = false ∧ State.reset.fpePending = false ∧
  State.reset.emitted = [] ∧
  (∀ i : Instr, (∃ t, exec i State.reset = .next t) ↔ i = .init)

/-- R3, R4, R140: exactly the legal parameters make an instance, and it has them (`instantiate` is the model's, log 7). -/
def Obligations.OnlyLegalConfigurationsAreInstances : Prop :=
  ∀ (tof tpt : Nat) (zls : ZeroLengthStream) (duty : Nat × Nat),
    (40000 ≤ tof ∧ tof ≤ 6553699 ∧ tof / 100 ≤ tpt →
      ∃ s, instantiate tof tpt zls duty = .ok s ∧ s.cfg.tof = tof ∧ s.cfg.tpt = tpt ∧
        s.cfg.zeroLengthStream = zls ∧ s = { State.reset with cfg := s.cfg }) ∧
    (¬ (40000 ≤ tof ∧ tof ≤ 6553699 ∧ tof / 100 ≤ tpt) → instantiate tof tpt zls duty = .error .badConfiguration)

/-- R37 at reset, for every configuration; the values of `tim_reload`, `tim_period` and the slots there are the model's
(log 10, log 11), and no clause rests on them. -/
def Obligations.InvariantHoldsAtReset : Prop := ∀ c : Config, Inv { State.reset with cfg := c }

/-- R37, in the inductive form of log 15: every step of the machine keeps the invariant, from every state it holds of. -/
def Obligations.EveryStepKeepsTheInvariant : Prop :=
  ∀ s t : State, Inv s → step s = .next t → Inv t

/-- R139: the one fault, exactly where it is raised, and that it ends the run for good. -/
def Obligations.StartEmptyBufferIsTheOneFault : Prop :=
  (∀ (i : Instr) (s : State) (f : Fault), exec i s = .fault f ↔
    f = .startEmptyBuffer ∧ i = .start ∧ s.tePending = false ∧ s.fpePending = false ∧ s.initialised = true ∧
      s.state = .ready ∧ s.pending = true ∧ s.len = 0) ∧
  (∀ (s t : State) (f : Fault) (a b : Nat), steps a s = .next t → step t = .fault f → steps (a + 1 + b) s = .fault f)

/-- R139, R46: where the invariant holds, the only fault is StartEmptyBuffer, and it is START's, of a staged buffer of
length 0; and no step is refused for the index it would stream from (log 13). -/
def Obligations.InvariantRulesOutOtherFaults : Prop :=
  ∀ (i : Instr) (s : State), Inv s →
    (∀ f : Fault, exec i s = .fault f → f = .startEmptyBuffer ∧ i = .start ∧ s.pending = true ∧ s.len = 0) ∧
    exec i s ≠ .refused .noSuchSlot

/-- R158: quiescent is exactly Ready with no handler pending. -/
def Obligations.QuiescentIsReadyWithNoHandlerPending : Prop :=
  ∀ s : State, Inv s → (Quiescent s ↔ s.state = .ready ∧ s.tePending = false ∧ s.fpePending = false)

/-- R129: a run of a buffer of two or more slots, with `p` periods before ISR_TE and `q` before ISR_FPE, from any
state of the invariant in which the buffer is staged: it emits the buffer in order and then `p + q` more copies of the last
slot, and ends Ready with the timer halted and the output low. -/
def Obligations.RunEmitsTheBufferThenLateCopies : Prop :=
  ∀ (s : State) (p q : Nat) (rest : List Turn), Inv s → s.initialised = true → s.state = .ready → s.pending = true →
    2 ≤ s.len → s.sched = runSchedule s.len p q ++ rest →
    ∃ t, steps (s.len + p + q + 3) s = .next t ∧
      t.emitted = s.emitted ++ bufferValues s ++ List.replicate (p + q) (Memory.read s.buf (s.len - 1)) ∧
      t.state = .ready ∧ t.pending = false ∧ t.timRunning = false ∧ t.timOut = .forcedLow ∧
      t.tePending = false ∧ t.fpePending = false ∧ t.buf = s.buf ∧ t.len = s.len ∧ t.sched = rest ∧
      t.responses = s.responses ++ [0x00000000]

/-- R125, R129 under PROMPT_SERVICE (R151): whatever internal step comes next, a run of two or more slots has emitted exactly the
slots whose periods are over, and when it ends it has emitted exactly its buffer. -/
def Obligations.PromptRunEmitsExactlyTheBuffer : Prop :=
  ∀ (i : Instr) (s t : State) (before : List Slot), Inv s → s.state = .busy → 2 ≤ s.len → Played before s →
    i.isCommand = false → Prompt s i → exec i s = .next t →
    (t.state = .busy → Played before t) ∧
    (t.state = .ready → t.emitted = before ++ bufferValues s) ∧ bufferValues t = bufferValues s

/-- R108: a one-slot run. With `never`, any number of periods repeats the value, no event is raised, the interrupt stays
disabled and the engine Busy, until STOP; with `fires`, START raises TE and the run ends after one period. -/
def Obligations.OneSlotRun : Prop :=
  ∀ (s : State) (rest : List Turn), s.initialised = true → s.state = .ready → s.pending = true → s.len = 1 →
    s.tePending = false → s.fpePending = false →
    (s.cfg.zeroLengthStream = .never → ∀ n,
      s.sched = hostTurn .start :: List.replicate n tickTurn ++ hostTurn .stop :: rest →
      (∃ t, steps (n + 1) s = .next t ∧ t.state = .busy ∧ t.xfRem = 0 ∧
        t.tePending = false ∧ t.fpePending = false ∧ t.timPeIrqEn = false ∧
        t.emitted = s.emitted ++ List.replicate n (Memory.read s.buf 0)) ∧
      (∃ u, steps (n + 2) s = .next u ∧ u.state = .ready ∧
        u.emitted = s.emitted ++ List.replicate n (Memory.read s.buf 0))) ∧
    (s.cfg.zeroLengthStream = .fires →
      s.sched = [hostTurn .start, isrTeTurn, tickTurn, isrFpeTurn] ++ rest →
      ∃ t, steps 1 s = .next t ∧ t.tePending = true ∧ t.xfRem = 0 ∧
      ∃ u, steps 4 s = .next u ∧ u.state = .ready ∧ u.sched = rest ∧
        u.emitted = s.emitted ++ [Memory.read s.buf 0])

/-- R157: no internal step adds to the work a run has left, and each handler, each streamed slot and the period that
raises FPE takes from it. -/
def Obligations.InternalStepsUseUpTheWorkLeft : Prop :=
  ∀ (i : Instr) (s t : State), Inv s → i.isCommand = false → exec i s = .next t →
    workLeft t ≤ workLeft s ∧
    (i = .isrTe ∨ i = .isrFpe ∨ 0 < s.xfRem ∨ (s.timPeIrqEn = true ∧ s.fpePending = false) →
      workLeft t < workLeft s)

/-- R157: under fairness, a run with no further step of HOST from a START of two or more slots reaches Ready; of one slot
it does so with `fires`, and with `never` it stays Busy for ever. -/
def Obligations.FairRunReachesReady : Prop :=
  ∀ (s : State) (σ : Nat → State) (who : Nat → Option Instr),
    Inv s → s.state = .ready → s.pending = true → exec .start s = .next (σ 0) → IsRun σ who → Fair σ who →
    (∀ n i, who n = some i → i.isCommand = false) →
    (2 ≤ s.len ∨ s.cfg.zeroLengthStream = .fires → ∃ n, (σ n).state = .ready) ∧
    (s.len = 1 → s.cfg.zeroLengthStream = .never → ∀ n, (σ n).state = .busy)

/-- R157: every infinite run of the machine, whatever its schedule and its free choices, is a run of the agents, and fair. -/
def Obligations.EveryRunOfTheMachineIsFair : Prop :=
  ∀ σ : Nat → State, (∀ n, step (σ n) = .next (σ (n + 1))) → ∃ who, IsRun σ who ∧ Fair σ who

/-- R129, R157: with nothing scheduled after START the machine plays a buffer of two or more slots by itself, with some numbers
`p` and `q` of late periods, ends Ready, and waits. -/
def Obligations.RunLeftAloneEnds : Prop :=
  ∀ s : State, Inv s → s.initialised = true → s.state = .ready → s.pending = true → 2 ≤ s.len →
    s.sched = [hostTurn .start] →
    ∃ p q t, steps (s.len + p + q + 3) s = .next t ∧
      t.emitted = s.emitted ++ bufferValues s ++ List.replicate (p + q) (Memory.read s.buf (s.len - 1)) ∧
      t.state = .ready ∧ t.pending = false ∧ t.timRunning = false ∧ t.timOut = .forcedLow ∧
      t.buf = s.buf ∧ t.len = s.len ∧ step t = .next t
end

