-- ==== Sys2Proof/Laws/Decode.lean ====
section
/-! SUPPORT. Decoding: no two rows of the opcode table share a word's pattern, and what the payload reader does. -/

namespace Sys2Proof

/-- Any two rows of the table differ on bits both of them fix, so no word is of two rows. -/
theorem opcodeTable_disjoint :
    opcodeTable.Pairwise fun r q => r.pattern &&& (r.mask &&& q.mask) ≠ q.pattern &&& (r.mask &&& q.mask) := by
  decide

theorem payload_cons (g : Segment) (segs : List Segment) :
    payload (g :: segs) = g.count :: g.frequency :: payload segs := rfl

theorem length_payload (segs : List Segment) : (payload segs).length = 2 * segs.length := by
  induction segs with
  | nil => rfl
  | cons g segs ih => simp only [payload_cons, List.length_cons, ih]; omega

/-- Reading back a payload gives its segments and what follows it. -/
theorem readSegments_payload (segs : List Segment) (rest : List Word) :
    readSegments segs.length (payload segs ++ rest) = some (segs, rest) := by
  induction segs with
  | nil => rfl
  | cons g segs ih => simp [payload_cons, readSegments, ih]

/-- Only a payload and what follows it reads as segments. -/
theorem readSegments_some {n : Nat} {ws rest : List Word} {segs : List Segment}
    (h : readSegments n ws = some (segs, rest)) : segs.length = n ∧ ws = payload segs ++ rest := by
  induction n generalizing ws segs with
  | zero => simp only [readSegments, Option.some.injEq, Prod.mk.injEq] at h; simp [← h.1, h.2, payload]
  | succ n ih =>
    match ws with
    | [] => simp [readSegments] at h
    | [c] => simp [readSegments] at h
    | c :: f :: ws =>
      simp only [readSegments, Option.map_eq_some_iff, Prod.mk.injEq] at h
      obtain ⟨⟨gs, r⟩, hr, rfl, rfl⟩ := h
      obtain ⟨hl, rfl⟩ := ih hr
      simp [payload_cons, hl]

/-- The payload reader refuses exactly a list with too few words (R71 item 5). -/
theorem readSegments_none {n : Nat} {ws : List Word} : readSegments n ws = none ↔ ws.length < 2 * n := by
  induction n generalizing ws with
  | zero => simp [readSegments]
  | succ n ih =>
    match ws with
    | [] => simp [readSegments]
    | [c] => simp [readSegments]; omega
    | c :: f :: ws => simp [readSegments, ih]; omega

/-! ### The fields of a word -/

theorem toNat_opOf (w : Word) : (opOf w).toNat = w.toNat / 2 ^ 28 := by
  simp only [opOf, BitVec.extractLsb'_toNat, Nat.shiftRight_eq_div_pow]; omega

theorem toNat_zeroOf (w : Word) : (zeroOf w).toNat = w.toNat / 2 ^ 16 % 2 ^ 12 := by
  simp only [zeroOf, BitVec.extractLsb'_toNat, Nat.shiftRight_eq_div_pow]

theorem toNat_nsegOf (w : Word) : (nsegOf w).toNat = w.toNat % 2 ^ 16 := by
  simp only [nsegOf, BitVec.extractLsb'_toNat, Nat.shiftRight_zero]

theorem toNat_commandWord (op : BitVec 4) (n : BitVec 16) :
    (commandWord op n).toNat = op.toNat * 2 ^ 28 + n.toNat := by
  have h : commandWord op n = BitVec.ofNat 32 (op.toNat * 2 ^ 28 + n.toNat) := by
    unfold commandWord
    apply BitVec.eq_of_toNat_eq
    have h1 := op.isLt
    have h2 := n.isLt
    rw [BitVec.toNat_append, BitVec.toNat_append, BitVec.toNat_ofNat]
    rw [← Nat.shiftLeft_add_eq_or_of_lt h2, ← Nat.shiftLeft_add_eq_or_of_lt (by decide)]
    simp [Nat.shiftLeft_eq]
    omega
  rw [h, BitVec.toNat_ofNat]; omega

/-- The high half of a word is what the SUBMIT row's mask keeps. -/
theorem and_highHalf (w : Word) : w &&& 0xFFFF0000#32 = (w >>> 16) <<< 16 := by
  apply BitVec.eq_of_getLsbD_eq
  intro k hk
  have hm : ∀ j : Fin 32, (0xFFFF0000#32).getLsbD j.val = decide (16 ≤ j.val) := by decide
  have := hm ⟨k, hk⟩
  simp only at this
  rw [BitVec.getLsbD_and, this]
  by_cases h : 16 ≤ k
  · simp [h, hk, show 16 + (k - 16) = k by omega]
  · simp [h]

theorem and_allOnes (w : Word) : w &&& 0xFFFFFFFF#32 = w := by
  rw [show (0xFFFFFFFF#32) = BitVec.allOnes 32 by decide, BitVec.and_allOnes]

/-- A word is one of SUBMIT's exactly when its `op` is 1 and its `zero` field 0 (R61, R62). -/
theorem submit_pattern (w : Word) : w &&& 0xFFFF0000#32 = 0x10000000#32 ↔ opOf w = 0x1 ∧ zeroOf w = 0 := by
  rw [and_highHalf, ← BitVec.toNat_inj, ← BitVec.toNat_inj, ← BitVec.toNat_inj, toNat_opOf, toNat_zeroOf]
  simp [Nat.shiftLeft_eq, Nat.shiftRight_eq_div_pow]
  omega

/-- What decoding a word that is one of SUBMIT's answers (R63, R71 item 5). -/
theorem decode_submit {w : Word} (ws : List Word) (h : opOf w = 0x1 ∧ zeroOf w = 0) :
    decode (w :: ws) =
      match readSegments (nsegOf w).toNat ws with
      | none => .error .shortFrame
      | some (segs, rest) => .ok (.submit segs, rest) := by
  have h0 : w ≠ 0#32 := by rintro rfl; exact absurd h.1 (by decide)
  have hf : (opcodeTable.find? fun r => r.accepts w) =
      some { pattern := 0x10000000, mask := 0xFFFF0000, form := .submit } := by
    rw [opcodeTable, List.find?_cons_of_neg (by simp [Row.accepts, and_allOnes, h0]),
      List.find?_cons_of_pos (by simp [Row.accepts, (submit_pattern w).mpr h])]
  rcases hr : readSegments (nsegOf w).toNat ws with _ | ⟨segs, rest⟩ <;> simp only [decode, hf, hr]

/-- What a word that is none of SUBMIT's decodes to: one of the eight one-word instructions, or nothing. -/
theorem decode_oneWord {w : Word} (ws : List Word) (h : ¬ (opOf w = 0x1 ∧ zeroOf w = 0)) :
    (w = 0x00000000#32 ∧ decode (w :: ws) = .ok (.init, ws)) ∨
    (w = 0x20000000#32 ∧ decode (w :: ws) = .ok (.start, ws)) ∨
    (w = 0x30000000#32 ∧ decode (w :: ws) = .ok (.stop, ws)) ∨
    (w = 0x40000000#32 ∧ decode (w :: ws) = .ok (.status, ws)) ∨
    (w = 0x50000000#32 ∧ decode (w :: ws) = .ok (.capacity, ws)) ∨
    (w = 0x80000000#32 ∧ decode (w :: ws) = .ok (.periodElapsed, ws)) ∨
    (w = 0x90000000#32 ∧ decode (w :: ws) = .ok (.isrTe, ws)) ∨
    (w = 0xA0000000#32 ∧ decode (w :: ws) = .ok (.isrFpe, ws)) ∨
    ((w ≠ 0x00000000#32 ∧ w ≠ 0x20000000#32 ∧ w ≠ 0x30000000#32 ∧ w ≠ 0x40000000#32 ∧ w ≠ 0x50000000#32 ∧
        w ≠ 0x80000000#32 ∧ w ≠ 0x90000000#32 ∧ w ≠ 0xA0000000#32) ∧
      decode (w :: ws) = .error .reservedWord) := by
  by_cases h0 : w = 0x00000000#32
  · subst h0; exact .inl ⟨rfl, rfl⟩
  by_cases h2 : w = 0x20000000#32
  · subst h2; exact .inr (.inl ⟨rfl, rfl⟩)
  by_cases h3 : w = 0x30000000#32
  · subst h3; exact .inr (.inr (.inl ⟨rfl, rfl⟩))
  by_cases h4 : w = 0x40000000#32
  · subst h4; exact .inr (.inr (.inr (.inl ⟨rfl, rfl⟩)))
  by_cases h5 : w = 0x50000000#32
  · subst h5; exact .inr (.inr (.inr (.inr (.inl ⟨rfl, rfl⟩))))
  by_cases h8 : w = 0x80000000#32
  · subst h8; exact .inr (.inr (.inr (.inr (.inr (.inl ⟨rfl, rfl⟩)))))
  by_cases h9 : w = 0x90000000#32
  · subst h9; exact .inr (.inr (.inr (.inr (.inr (.inr (.inl ⟨rfl, rfl⟩))))))
  by_cases hA : w = 0xA0000000#32
  · subst hA; exact .inr (.inr (.inr (.inr (.inr (.inr (.inr (.inl ⟨rfl, rfl⟩)))))))
  refine .inr (.inr (.inr (.inr (.inr (.inr (.inr (.inr ⟨⟨h0, h2, h3, h4, h5, h8, h9, hA⟩, ?_⟩)))))))
  have hs : w &&& 0xFFFF0000#32 ≠ 0x10000000#32 := fun e => h ((submit_pattern w).mp e)
  have hf : (opcodeTable.find? fun r => r.accepts w) = none := by
    simp [opcodeTable, Row.accepts, and_allOnes, h0, h2, h3, h4, h5, h8, h9, hA, hs]
  simp only [decode, hf]

end Sys2Proof
end

