-- ==== Sys2Proof/Laws/Divider.lean ====
section
/-! SUPPORT. The Divider Calculator: CLAMP with its bounds written out, and the ranges of the configuration. -/

namespace Sys2Proof.Machine

/-- CLAMP with F_MIN and F_MAX as numbers (R1, R80). -/
theorem clamp_eq (f : Nat) : clamp f = if f < 100 then 100 else if 20000 < f then 20000 else f := rfl

/-- CLAMP's result is in the closed range (R80). -/
theorem clamp_bounds (f : Nat) : 100 ≤ clamp f ∧ clamp f ≤ 20000 := by
  rw [clamp_eq]; split_ifs <;> omega

end Sys2Proof.Machine

namespace Sys2Proof

/-- Every configuration meets R3. -/
theorem Config.tof_bounds (c : Config) : 40000 ≤ c.tof ∧ c.tof ≤ 6553699 := by
  have := c.tofAbove.isLt
  simp only [Config.tof]
  omega

/-- Every configuration meets R4. -/
theorem Config.tpt_bound (c : Config) : c.tof / 100 ≤ c.tpt := by simp [Config.tpt]

/-- Parameters that make a configuration are its parameters. -/
theorem Config.ofParams_some {tof tpt : Nat} {zls : ZeroLengthStream} {duty : Nat × Nat} {c : Config}
    (h : Config.ofParams tof tpt zls duty = some c) :
    c.tof = tof ∧ c.tpt = tpt ∧ c.zeroLengthStream = zls ∧ c.duty = duty := by
  unfold Config.ofParams at h
  split_ifs at h with hl
  obtain rfl := Option.some.inj h
  have ht : 40000 + (tof - 40000) = tof := by omega
  simp only [Config.tof, Config.tpt, ht, and_self, and_true, true_and]
  omega

end Sys2Proof
end

