-- ==== Sys2Proof/Laws/Memory.lean ====
section
/-! SUPPORT. The slots of the TransferBuffer: what each memory operation reads and leaves, and that each keeps the
canonical form. -/

namespace Sys2Proof.Machine

theorem Memory.wfFrom_cons {lo i : Nat} {v : Slot} {m : Memory} :
    Memory.wfFrom lo ((i, v) :: m) = true ↔
      lo ≤ i ∧ i < maxPulses ∧ v ≠ Memory.unlisted ∧ Memory.wfFrom (i + 1) m = true := by
  simp [Memory.wfFrom, and_assoc]

theorem Memory.wfFrom_mono {lo hi : Nat} {m : Memory} (h : Memory.wfFrom hi m = true) (hl : lo ≤ hi) :
    Memory.wfFrom lo m = true := by
  cases m with
  | nil => rfl
  | cons c m =>
    obtain ⟨i, v⟩ := c
    rw [Memory.wfFrom_cons] at h ⊢
    exact ⟨le_trans hl h.1, h.2⟩

/-- A slot below a canonical list's first index is not listed. -/
theorem Memory.read_below {lo i : Nat} {m : Memory} (h : Memory.wfFrom lo m = true) (hi : i < lo) :
    Memory.read m i = Memory.unlisted := by
  induction m generalizing lo with
  | nil => rfl
  | cons c m ih =>
    obtain ⟨j, v⟩ := c
    rw [Memory.wfFrom_cons] at h
    have hj : j ≠ i := by omega
    simp only [Memory.read, if_neg hj]
    exact ih h.2.2.2 (by omega)

theorem Memory.read_write_from {lo i j : Nat} {v : Slot} {m : Memory} (h : Memory.wfFrom lo m = true) :
    Memory.read (Memory.write m i v) j = if j = i then v else Memory.read m j := by
  induction m generalizing lo with
  | nil =>
    by_cases hv : v = Memory.unlisted <;> by_cases hj : i = j <;>
      simp [Memory.write, Memory.read, hv, hj, eq_comm]
  | cons c m ih =>
    obtain ⟨k, u⟩ := c
    have hm := Memory.wfFrom_cons.mp h
    have hbelow : ∀ a, a ≤ k → Memory.read m a = Memory.unlisted := fun a ha =>
      Memory.read_below hm.2.2.2 (Nat.lt_succ_of_le ha)
    have ih := ih hm.2.2.2
    by_cases hj : j = i
    · subst hj
      rw [if_pos rfl] at ih ⊢
      unfold Memory.write
      split_ifs with h1 h2 h2 h3
      · simp [Memory.read, show k ≠ j by omega, hbelow j (by omega), h2]
      · simp [Memory.read]
      · simp [hbelow j (by omega), h3]
      · simp [Memory.read]
      · simp [Memory.read, show k ≠ j by omega, ih]
    · rw [if_neg hj] at ih ⊢
      have hj' : i ≠ j := Ne.symm hj
      unfold Memory.write
      split_ifs with h1 h2 h2 h3
      · rfl
      · simp [Memory.read, hj']
      · subst h2; simp [Memory.read, hj']
      · subst h2; simp [Memory.read, hj']
      · by_cases hk : k = j <;> simp [Memory.read, hk, ih]

/-- Reading after a write: the value written at its slot, every other slot as before. -/
theorem Memory.read_write {i j : Nat} {v : Slot} {m : Memory} (h : Memory.wf m = true) :
    Memory.read (Memory.write m i v) j = if j = i then v else Memory.read m j :=
  Memory.read_write_from h

theorem Memory.wfFrom_write {lo i : Nat} {v : Slot} {m : Memory} (h : Memory.wfFrom lo m = true) (hlo : lo ≤ i)
    (hi : i < maxPulses) : Memory.wfFrom lo (Memory.write m i v) = true := by
  induction m generalizing lo with
  | nil =>
    by_cases hv : v = Memory.unlisted <;> simp [Memory.write, Memory.wfFrom, hv, hlo, hi]
  | cons c m ih =>
    obtain ⟨k, u⟩ := c
    have hm := Memory.wfFrom_cons.mp h
    unfold Memory.write
    split_ifs with h1 h2 h2 h3
    · exact h
    · exact Memory.wfFrom_cons.mpr ⟨hlo, hi, h2, Memory.wfFrom_cons.mpr ⟨h1, hm.2⟩⟩
    · exact Memory.wfFrom_mono hm.2.2.2 (by omega)
    · subst h2; exact Memory.wfFrom_cons.mpr ⟨hlo, hi, h3, hm.2.2.2⟩
    · exact Memory.wfFrom_cons.mpr ⟨hm.1, hm.2.1, hm.2.2.1, ih hm.2.2.2 (by omega)⟩

/-- A write to a slot of the buffer keeps the canonical form. -/
theorem Memory.wf_write {i : Nat} {v : Slot} {m : Memory} (h : Memory.wf m = true) (hi : i < maxPulses) :
    Memory.wf (Memory.write m i v) = true :=
  Memory.wfFrom_write h (Nat.zero_le _) hi

/-- Consecutive writes within the buffer keep the canonical form. -/
theorem Memory.wf_writeFrom {vs : List Slot} {pos : Nat} {m : Memory} (h : Memory.wf m = true)
    (hp : pos + vs.length ≤ maxPulses) : Memory.wf (Memory.writeFrom m pos vs) = true := by
  induction vs generalizing pos m with
  | nil => exact h
  | cons v vs ih =>
    simp only [List.length_cons] at hp
    exact ih (Memory.wf_write h (by omega)) (by omega)

/-- Reading after consecutive writes: the value written within them, every other slot as before. -/
theorem Memory.read_writeFrom {vs : List Slot} {pos i : Nat} {m : Memory} (h : Memory.wf m = true)
    (hp : pos + vs.length ≤ maxPulses) :
    Memory.read (Memory.writeFrom m pos vs) i =
      if pos ≤ i then vs.getD (i - pos) (Memory.read m i) else Memory.read m i := by
  induction vs generalizing pos m with
  | nil => simp [Memory.writeFrom]
  | cons v vs ih =>
    simp only [List.length_cons] at hp
    rw [Memory.writeFrom, ih (Memory.wf_write h (by omega)) (by omega), Memory.read_write h]
    by_cases h1 : i = pos
    · subst h1; simp
    · by_cases h2 : pos ≤ i
      · obtain ⟨d, rfl⟩ : ∃ d, i = pos + 1 + d := ⟨i - (pos + 1), by omega⟩
        simp [h1, h2, show pos + 1 + d - pos = d + 1 by omega]
      · simp [h1, h2, show ¬ pos + 1 ≤ i by omega]

/-- A segment list expands to as many slots as its total count. -/
theorem length_expand (c : Config) (segs : List Segment) : (expand c segs).length = totalCount segs := by
  induction segs with
  | nil => rfl
  | cons g gs ih => simp [expand, totalCount, ih]

/-- What BUILD can answer: Overflow exactly above the capacity, else the written buffer and the total (R90, R92). -/
theorem build_cases (c : Config) (segs : List Segment) (m : Memory) :
    (maxPulses < totalCount segs ∧ build c segs m = none) ∨
    (totalCount segs ≤ maxPulses ∧ build c segs m = some (Memory.writeFrom m 0 (expand c segs), totalCount segs)) := by
  unfold build
  split_ifs with h
  · exact .inl ⟨h, rfl⟩
  · exact .inr ⟨by omega, rfl⟩

/-- BUILD keeps the canonical form. -/
theorem wf_build {c : Config} {segs : List Segment} {m m' : Memory} {n : Nat} (h : Memory.wf m = true)
    (hb : build c segs m = some (m', n)) : Memory.wf m' = true := by
  obtain ⟨-, h'⟩ | ⟨hl, h'⟩ := build_cases c segs m
  · simp [h'] at hb
  · rw [h'] at hb
    obtain ⟨rfl, -⟩ := Prod.mk.inj (Option.some.inj hb)
    exact Memory.wf_writeFrom h (by rw [length_expand]; omega)

end Sys2Proof.Machine
end

