-- ==== Sys2Proof/Laws/State.lean ====
section
/-! SUPPORT. One lemma per field per update of the state, each true by `rfl`. -/

namespace Sys2Proof.Machine

variable (s : State)

/-! ### `State.respond` -/

@[simp] theorem State.respond_state (w : Word) : (s.respond w).state = s.state := rfl
@[simp] theorem State.respond_pending (w : Word) : (s.respond w).pending = s.pending := rfl
@[simp] theorem State.respond_buf (w : Word) : (s.respond w).buf = s.buf := rfl
@[simp] theorem State.respond_len (w : Word) : (s.respond w).len = s.len := rfl
@[simp] theorem State.respond_initialised (w : Word) : (s.respond w).initialised = s.initialised := rfl
@[simp] theorem State.respond_timReload (w : Word) : (s.respond w).timReload = s.timReload := rfl
@[simp] theorem State.respond_timRunning (w : Word) : (s.respond w).timRunning = s.timRunning := rfl
@[simp] theorem State.respond_timOut (w : Word) : (s.respond w).timOut = s.timOut := rfl
@[simp] theorem State.respond_timPeIrqEn (w : Word) : (s.respond w).timPeIrqEn = s.timPeIrqEn := rfl
@[simp] theorem State.respond_timPeriod (w : Word) : (s.respond w).timPeriod = s.timPeriod := rfl
@[simp] theorem State.respond_xfEn (w : Word) : (s.respond w).xfEn = s.xfEn := rfl
@[simp] theorem State.respond_xfSrc (w : Word) : (s.respond w).xfSrc = s.xfSrc := rfl
@[simp] theorem State.respond_xfRem (w : Word) : (s.respond w).xfRem = s.xfRem := rfl
@[simp] theorem State.respond_gpioRouted (w : Word) : (s.respond w).gpioRouted = s.gpioRouted := rfl
@[simp] theorem State.respond_tePending (w : Word) : (s.respond w).tePending = s.tePending := rfl
@[simp] theorem State.respond_fpePending (w : Word) : (s.respond w).fpePending = s.fpePending := rfl
@[simp] theorem State.respond_emitted (w : Word) : (s.respond w).emitted = s.emitted := rfl
@[simp] theorem State.respond_cfg (w : Word) : (s.respond w).cfg = s.cfg := rfl
@[simp] theorem State.respond_sched (w : Word) : (s.respond w).sched = s.sched := rfl
@[simp] theorem State.respond_responses (w : Word) : (s.respond w).responses = s.responses ++ [w] := rfl
@[simp] theorem State.respond_freeTurns (w : Word) : (s.respond w).freeTurns = s.freeTurns := rfl
@[simp] theorem State.respond_passedOver (w : Word) : (s.respond w).passedOver = s.passedOver := rfl

/-! ### `State.initialise` -/

@[simp] theorem State.initialise_state : s.initialise.state = .ready := rfl
@[simp] theorem State.initialise_pending : s.initialise.pending = false := rfl
@[simp] theorem State.initialise_buf : s.initialise.buf = s.buf := rfl
@[simp] theorem State.initialise_len : s.initialise.len = 0 := rfl
@[simp] theorem State.initialise_initialised : s.initialise.initialised = true := rfl
@[simp] theorem State.initialise_timReload : s.initialise.timReload = s.timReload := rfl
@[simp] theorem State.initialise_timRunning : s.initialise.timRunning = false := rfl
@[simp] theorem State.initialise_timOut : s.initialise.timOut = .forcedLow := rfl
@[simp] theorem State.initialise_timPeIrqEn : s.initialise.timPeIrqEn = false := rfl
@[simp] theorem State.initialise_timPeriod : s.initialise.timPeriod = s.cfg.tpt := rfl
@[simp] theorem State.initialise_xfEn : s.initialise.xfEn = false := rfl
@[simp] theorem State.initialise_xfSrc : s.initialise.xfSrc = 0 := rfl
@[simp] theorem State.initialise_xfRem : s.initialise.xfRem = 0 := rfl
@[simp] theorem State.initialise_gpioRouted : s.initialise.gpioRouted = true := rfl
@[simp] theorem State.initialise_tePending : s.initialise.tePending = false := rfl
@[simp] theorem State.initialise_fpePending : s.initialise.fpePending = false := rfl
@[simp] theorem State.initialise_emitted : s.initialise.emitted = s.emitted := rfl
@[simp] theorem State.initialise_cfg : s.initialise.cfg = s.cfg := rfl
@[simp] theorem State.initialise_sched : s.initialise.sched = s.sched := rfl
@[simp] theorem State.initialise_responses : s.initialise.responses = s.responses := rfl
@[simp] theorem State.initialise_freeTurns : s.initialise.freeTurns = s.freeTurns := rfl
@[simp] theorem State.initialise_passedOver : s.initialise.passedOver = s.passedOver := rfl

/-! ### `State.stage` -/

@[simp] theorem State.stage_state (m : Memory) (n : Nat) : (s.stage m n).state = s.state := rfl
@[simp] theorem State.stage_pending (m : Memory) (n : Nat) : (s.stage m n).pending = true := rfl
@[simp] theorem State.stage_buf (m : Memory) (n : Nat) : (s.stage m n).buf = m := rfl
@[simp] theorem State.stage_len (m : Memory) (n : Nat) : (s.stage m n).len = n := rfl
@[simp] theorem State.stage_initialised (m : Memory) (n : Nat) : (s.stage m n).initialised = s.initialised := rfl
@[simp] theorem State.stage_timReload (m : Memory) (n : Nat) : (s.stage m n).timReload = s.timReload := rfl
@[simp] theorem State.stage_timRunning (m : Memory) (n : Nat) : (s.stage m n).timRunning = s.timRunning := rfl
@[simp] theorem State.stage_timOut (m : Memory) (n : Nat) : (s.stage m n).timOut = s.timOut := rfl
@[simp] theorem State.stage_timPeIrqEn (m : Memory) (n : Nat) : (s.stage m n).timPeIrqEn = s.timPeIrqEn := rfl
@[simp] theorem State.stage_timPeriod (m : Memory) (n : Nat) : (s.stage m n).timPeriod = s.timPeriod := rfl
@[simp] theorem State.stage_xfEn (m : Memory) (n : Nat) : (s.stage m n).xfEn = s.xfEn := rfl
@[simp] theorem State.stage_xfSrc (m : Memory) (n : Nat) : (s.stage m n).xfSrc = s.xfSrc := rfl
@[simp] theorem State.stage_xfRem (m : Memory) (n : Nat) : (s.stage m n).xfRem = s.xfRem := rfl
@[simp] theorem State.stage_gpioRouted (m : Memory) (n : Nat) : (s.stage m n).gpioRouted = s.gpioRouted := rfl
@[simp] theorem State.stage_tePending (m : Memory) (n : Nat) : (s.stage m n).tePending = s.tePending := rfl
@[simp] theorem State.stage_fpePending (m : Memory) (n : Nat) : (s.stage m n).fpePending = s.fpePending := rfl
@[simp] theorem State.stage_emitted (m : Memory) (n : Nat) : (s.stage m n).emitted = s.emitted := rfl
@[simp] theorem State.stage_cfg (m : Memory) (n : Nat) : (s.stage m n).cfg = s.cfg := rfl
@[simp] theorem State.stage_sched (m : Memory) (n : Nat) : (s.stage m n).sched = s.sched := rfl
@[simp] theorem State.stage_responses (m : Memory) (n : Nat) : (s.stage m n).responses = s.responses := rfl
@[simp] theorem State.stage_freeTurns (m : Memory) (n : Nat) : (s.stage m n).freeTurns = s.freeTurns := rfl
@[simp] theorem State.stage_passedOver (m : Memory) (n : Nat) : (s.stage m n).passedOver = s.passedOver := rfl

/-! ### `State.launch` -/

@[simp] theorem State.launch_state : s.launch.state = .busy := rfl
@[simp] theorem State.launch_pending : s.launch.pending = false := rfl
@[simp] theorem State.launch_buf : s.launch.buf = s.buf := rfl
@[simp] theorem State.launch_len : s.launch.len = s.len := rfl
@[simp] theorem State.launch_initialised : s.launch.initialised = s.initialised := rfl
@[simp] theorem State.launch_timReload : s.launch.timReload = Memory.read s.buf 0 := rfl
@[simp] theorem State.launch_timRunning : s.launch.timRunning = true := rfl
@[simp] theorem State.launch_timOut : s.launch.timOut = .pwm := rfl
@[simp] theorem State.launch_timPeIrqEn : s.launch.timPeIrqEn = false := rfl
@[simp] theorem State.launch_timPeriod : s.launch.timPeriod = s.timPeriod := rfl
@[simp] theorem State.launch_xfEn : s.launch.xfEn = true := rfl
@[simp] theorem State.launch_xfSrc : s.launch.xfSrc = 1 := rfl
@[simp] theorem State.launch_xfRem : s.launch.xfRem = s.len - 1 := rfl
@[simp] theorem State.launch_gpioRouted : s.launch.gpioRouted = s.gpioRouted := rfl
@[simp] theorem State.launch_tePending : s.launch.tePending = (s.tePending || teRaisedByStart s.cfg.zeroLengthStream (s.len - 1)) := rfl
@[simp] theorem State.launch_fpePending : s.launch.fpePending = s.fpePending := rfl
@[simp] theorem State.launch_emitted : s.launch.emitted = s.emitted := rfl
@[simp] theorem State.launch_cfg : s.launch.cfg = s.cfg := rfl
@[simp] theorem State.launch_sched : s.launch.sched = s.sched := rfl
@[simp] theorem State.launch_responses : s.launch.responses = s.responses := rfl
@[simp] theorem State.launch_freeTurns : s.launch.freeTurns = s.freeTurns := rfl
@[simp] theorem State.launch_passedOver : s.launch.passedOver = s.passedOver := rfl

/-! ### `State.haltEmission` -/

@[simp] theorem State.haltEmission_state : s.haltEmission.state = .ready := rfl
@[simp] theorem State.haltEmission_pending : s.haltEmission.pending = s.pending := rfl
@[simp] theorem State.haltEmission_buf : s.haltEmission.buf = s.buf := rfl
@[simp] theorem State.haltEmission_len : s.haltEmission.len = s.len := rfl
@[simp] theorem State.haltEmission_initialised : s.haltEmission.initialised = s.initialised := rfl
@[simp] theorem State.haltEmission_timReload : s.haltEmission.timReload = s.timReload := rfl
@[simp] theorem State.haltEmission_timRunning : s.haltEmission.timRunning = false := rfl
@[simp] theorem State.haltEmission_timOut : s.haltEmission.timOut = .forcedLow := rfl
@[simp] theorem State.haltEmission_timPeIrqEn : s.haltEmission.timPeIrqEn = s.timPeIrqEn := rfl
@[simp] theorem State.haltEmission_timPeriod : s.haltEmission.timPeriod = s.timPeriod := rfl
@[simp] theorem State.haltEmission_xfEn : s.haltEmission.xfEn = s.xfEn := rfl
@[simp] theorem State.haltEmission_xfSrc : s.haltEmission.xfSrc = s.xfSrc := rfl
@[simp] theorem State.haltEmission_xfRem : s.haltEmission.xfRem = s.xfRem := rfl
@[simp] theorem State.haltEmission_gpioRouted : s.haltEmission.gpioRouted = s.gpioRouted := rfl
@[simp] theorem State.haltEmission_tePending : s.haltEmission.tePending = s.tePending := rfl
@[simp] theorem State.haltEmission_fpePending : s.haltEmission.fpePending = s.fpePending := rfl
@[simp] theorem State.haltEmission_emitted : s.haltEmission.emitted = s.emitted := rfl
@[simp] theorem State.haltEmission_cfg : s.haltEmission.cfg = s.cfg := rfl
@[simp] theorem State.haltEmission_sched : s.haltEmission.sched = s.sched := rfl
@[simp] theorem State.haltEmission_responses : s.haltEmission.responses = s.responses := rfl
@[simp] theorem State.haltEmission_freeTurns : s.haltEmission.freeTurns = s.freeTurns := rfl
@[simp] theorem State.haltEmission_passedOver : s.haltEmission.passedOver = s.passedOver := rfl

/-! ### `State.completePeriod` -/

@[simp] theorem State.completePeriod_state : s.completePeriod.state = s.state := rfl
@[simp] theorem State.completePeriod_pending : s.completePeriod.pending = s.pending := rfl
@[simp] theorem State.completePeriod_buf : s.completePeriod.buf = s.buf := rfl
@[simp] theorem State.completePeriod_len : s.completePeriod.len = s.len := rfl
@[simp] theorem State.completePeriod_initialised : s.completePeriod.initialised = s.initialised := rfl
@[simp] theorem State.completePeriod_timReload : s.completePeriod.timReload = s.timReload := rfl
@[simp] theorem State.completePeriod_timRunning : s.completePeriod.timRunning = s.timRunning := rfl
@[simp] theorem State.completePeriod_timOut : s.completePeriod.timOut = s.timOut := rfl
@[simp] theorem State.completePeriod_timPeIrqEn : s.completePeriod.timPeIrqEn = s.timPeIrqEn := rfl
@[simp] theorem State.completePeriod_timPeriod : s.completePeriod.timPeriod = s.timPeriod := rfl
@[simp] theorem State.completePeriod_xfEn : s.completePeriod.xfEn = s.xfEn := rfl
@[simp] theorem State.completePeriod_xfSrc : s.completePeriod.xfSrc = s.xfSrc := rfl
@[simp] theorem State.completePeriod_xfRem : s.completePeriod.xfRem = s.xfRem := rfl
@[simp] theorem State.completePeriod_gpioRouted : s.completePeriod.gpioRouted = s.gpioRouted := rfl
@[simp] theorem State.completePeriod_tePending : s.completePeriod.tePending = s.tePending := rfl
@[simp] theorem State.completePeriod_fpePending : s.completePeriod.fpePending = (s.fpePending || fpeRaisedByElapse s.timPeIrqEn) := rfl
@[simp] theorem State.completePeriod_emitted : s.completePeriod.emitted = s.emitted ++ [s.timReload] := rfl
@[simp] theorem State.completePeriod_cfg : s.completePeriod.cfg = s.cfg := rfl
@[simp] theorem State.completePeriod_sched : s.completePeriod.sched = s.sched := rfl
@[simp] theorem State.completePeriod_responses : s.completePeriod.responses = s.responses := rfl
@[simp] theorem State.completePeriod_freeTurns : s.completePeriod.freeTurns = s.freeTurns := rfl
@[simp] theorem State.completePeriod_passedOver : s.completePeriod.passedOver = s.passedOver := rfl

/-! ### `State.stream` -/

@[simp] theorem State.stream_state (v : Slot) : (s.stream v).state = s.state := rfl
@[simp] theorem State.stream_pending (v : Slot) : (s.stream v).pending = s.pending := rfl
@[simp] theorem State.stream_buf (v : Slot) : (s.stream v).buf = s.buf := rfl
@[simp] theorem State.stream_len (v : Slot) : (s.stream v).len = s.len := rfl
@[simp] theorem State.stream_initialised (v : Slot) : (s.stream v).initialised = s.initialised := rfl
@[simp] theorem State.stream_timReload (v : Slot) : (s.stream v).timReload = v := rfl
@[simp] theorem State.stream_timRunning (v : Slot) : (s.stream v).timRunning = s.timRunning := rfl
@[simp] theorem State.stream_timOut (v : Slot) : (s.stream v).timOut = s.timOut := rfl
@[simp] theorem State.stream_timPeIrqEn (v : Slot) : (s.stream v).timPeIrqEn = s.timPeIrqEn := rfl
@[simp] theorem State.stream_timPeriod (v : Slot) : (s.stream v).timPeriod = s.timPeriod := rfl
@[simp] theorem State.stream_xfEn (v : Slot) : (s.stream v).xfEn = s.xfEn := rfl
@[simp] theorem State.stream_xfSrc (v : Slot) : (s.stream v).xfSrc = s.xfSrc + 1 := rfl
@[simp] theorem State.stream_xfRem (v : Slot) : (s.stream v).xfRem = s.xfRem - 1 := rfl
@[simp] theorem State.stream_gpioRouted (v : Slot) : (s.stream v).gpioRouted = s.gpioRouted := rfl
@[simp] theorem State.stream_tePending (v : Slot) : (s.stream v).tePending = (s.tePending || teRaisedByStream (s.xfRem - 1)) := rfl
@[simp] theorem State.stream_fpePending (v : Slot) : (s.stream v).fpePending = s.fpePending := rfl
@[simp] theorem State.stream_emitted (v : Slot) : (s.stream v).emitted = s.emitted := rfl
@[simp] theorem State.stream_cfg (v : Slot) : (s.stream v).cfg = s.cfg := rfl
@[simp] theorem State.stream_sched (v : Slot) : (s.stream v).sched = s.sched := rfl
@[simp] theorem State.stream_responses (v : Slot) : (s.stream v).responses = s.responses := rfl
@[simp] theorem State.stream_freeTurns (v : Slot) : (s.stream v).freeTurns = s.freeTurns := rfl
@[simp] theorem State.stream_passedOver (v : Slot) : (s.stream v).passedOver = s.passedOver := rfl

/-! ### `State.ackTe` -/

@[simp] theorem State.ackTe_state : s.ackTe.state = s.state := rfl
@[simp] theorem State.ackTe_pending : s.ackTe.pending = s.pending := rfl
@[simp] theorem State.ackTe_buf : s.ackTe.buf = s.buf := rfl
@[simp] theorem State.ackTe_len : s.ackTe.len = s.len := rfl
@[simp] theorem State.ackTe_initialised : s.ackTe.initialised = s.initialised := rfl
@[simp] theorem State.ackTe_timReload : s.ackTe.timReload = s.timReload := rfl
@[simp] theorem State.ackTe_timRunning : s.ackTe.timRunning = s.timRunning := rfl
@[simp] theorem State.ackTe_timOut : s.ackTe.timOut = s.timOut := rfl
@[simp] theorem State.ackTe_timPeIrqEn : s.ackTe.timPeIrqEn = s.timPeIrqEn := rfl
@[simp] theorem State.ackTe_timPeriod : s.ackTe.timPeriod = s.timPeriod := rfl
@[simp] theorem State.ackTe_xfEn : s.ackTe.xfEn = s.xfEn := rfl
@[simp] theorem State.ackTe_xfSrc : s.ackTe.xfSrc = s.xfSrc := rfl
@[simp] theorem State.ackTe_xfRem : s.ackTe.xfRem = s.xfRem := rfl
@[simp] theorem State.ackTe_gpioRouted : s.ackTe.gpioRouted = s.gpioRouted := rfl
@[simp] theorem State.ackTe_tePending : s.ackTe.tePending = false := rfl
@[simp] theorem State.ackTe_fpePending : s.ackTe.fpePending = s.fpePending := rfl
@[simp] theorem State.ackTe_emitted : s.ackTe.emitted = s.emitted := rfl
@[simp] theorem State.ackTe_cfg : s.ackTe.cfg = s.cfg := rfl
@[simp] theorem State.ackTe_sched : s.ackTe.sched = s.sched := rfl
@[simp] theorem State.ackTe_responses : s.ackTe.responses = s.responses := rfl
@[simp] theorem State.ackTe_freeTurns : s.ackTe.freeTurns = s.freeTurns := rfl
@[simp] theorem State.ackTe_passedOver : s.ackTe.passedOver = s.passedOver := rfl

/-! ### `State.ackFpe` -/

@[simp] theorem State.ackFpe_state : s.ackFpe.state = s.state := rfl
@[simp] theorem State.ackFpe_pending : s.ackFpe.pending = s.pending := rfl
@[simp] theorem State.ackFpe_buf : s.ackFpe.buf = s.buf := rfl
@[simp] theorem State.ackFpe_len : s.ackFpe.len = s.len := rfl
@[simp] theorem State.ackFpe_initialised : s.ackFpe.initialised = s.initialised := rfl
@[simp] theorem State.ackFpe_timReload : s.ackFpe.timReload = s.timReload := rfl
@[simp] theorem State.ackFpe_timRunning : s.ackFpe.timRunning = s.timRunning := rfl
@[simp] theorem State.ackFpe_timOut : s.ackFpe.timOut = s.timOut := rfl
@[simp] theorem State.ackFpe_timPeIrqEn : s.ackFpe.timPeIrqEn = s.timPeIrqEn := rfl
@[simp] theorem State.ackFpe_timPeriod : s.ackFpe.timPeriod = s.timPeriod := rfl
@[simp] theorem State.ackFpe_xfEn : s.ackFpe.xfEn = s.xfEn := rfl
@[simp] theorem State.ackFpe_xfSrc : s.ackFpe.xfSrc = s.xfSrc := rfl
@[simp] theorem State.ackFpe_xfRem : s.ackFpe.xfRem = s.xfRem := rfl
@[simp] theorem State.ackFpe_gpioRouted : s.ackFpe.gpioRouted = s.gpioRouted := rfl
@[simp] theorem State.ackFpe_tePending : s.ackFpe.tePending = s.tePending := rfl
@[simp] theorem State.ackFpe_fpePending : s.ackFpe.fpePending = false := rfl
@[simp] theorem State.ackFpe_emitted : s.ackFpe.emitted = s.emitted := rfl
@[simp] theorem State.ackFpe_cfg : s.ackFpe.cfg = s.cfg := rfl
@[simp] theorem State.ackFpe_sched : s.ackFpe.sched = s.sched := rfl
@[simp] theorem State.ackFpe_responses : s.ackFpe.responses = s.responses := rfl
@[simp] theorem State.ackFpe_freeTurns : s.ackFpe.freeTurns = s.freeTurns := rfl
@[simp] theorem State.ackFpe_passedOver : s.ackFpe.passedOver = s.passedOver := rfl

/-! ### `State.armPeriodIrq` -/

@[simp] theorem State.armPeriodIrq_state : s.armPeriodIrq.state = s.state := rfl
@[simp] theorem State.armPeriodIrq_pending : s.armPeriodIrq.pending = s.pending := rfl
@[simp] theorem State.armPeriodIrq_buf : s.armPeriodIrq.buf = s.buf := rfl
@[simp] theorem State.armPeriodIrq_len : s.armPeriodIrq.len = s.len := rfl
@[simp] theorem State.armPeriodIrq_initialised : s.armPeriodIrq.initialised = s.initialised := rfl
@[simp] theorem State.armPeriodIrq_timReload : s.armPeriodIrq.timReload = s.timReload := rfl
@[simp] theorem State.armPeriodIrq_timRunning : s.armPeriodIrq.timRunning = s.timRunning := rfl
@[simp] theorem State.armPeriodIrq_timOut : s.armPeriodIrq.timOut = s.timOut := rfl
@[simp] theorem State.armPeriodIrq_timPeIrqEn : s.armPeriodIrq.timPeIrqEn = true := rfl
@[simp] theorem State.armPeriodIrq_timPeriod : s.armPeriodIrq.timPeriod = s.timPeriod := rfl
@[simp] theorem State.armPeriodIrq_xfEn : s.armPeriodIrq.xfEn = s.xfEn := rfl
@[simp] theorem State.armPeriodIrq_xfSrc : s.armPeriodIrq.xfSrc = s.xfSrc := rfl
@[simp] theorem State.armPeriodIrq_xfRem : s.armPeriodIrq.xfRem = s.xfRem := rfl
@[simp] theorem State.armPeriodIrq_gpioRouted : s.armPeriodIrq.gpioRouted = s.gpioRouted := rfl
@[simp] theorem State.armPeriodIrq_tePending : s.armPeriodIrq.tePending = s.tePending := rfl
@[simp] theorem State.armPeriodIrq_fpePending : s.armPeriodIrq.fpePending = s.fpePending := rfl
@[simp] theorem State.armPeriodIrq_emitted : s.armPeriodIrq.emitted = s.emitted := rfl
@[simp] theorem State.armPeriodIrq_cfg : s.armPeriodIrq.cfg = s.cfg := rfl
@[simp] theorem State.armPeriodIrq_sched : s.armPeriodIrq.sched = s.sched := rfl
@[simp] theorem State.armPeriodIrq_responses : s.armPeriodIrq.responses = s.responses := rfl
@[simp] theorem State.armPeriodIrq_freeTurns : s.armPeriodIrq.freeTurns = s.freeTurns := rfl
@[simp] theorem State.armPeriodIrq_passedOver : s.armPeriodIrq.passedOver = s.passedOver := rfl

end Sys2Proof.Machine
end

