-- ==== Sys2Proof/Laws/Exec.lean ====
section
/-! SUPPORT. What the guards, the meanings and the step can do: one inversion lemma each. -/

namespace Sys2Proof.Machine

/-- An agent's step answers a next state only where the agent is enabled. -/
theorem asAgent_next {a : Agent} {s t : State} {k : State → Host.Outcome State Fault Refusal} :
    asAgent a s k = .next t ↔ enabled a s = true ∧ k s = .next t := by
  unfold asAgent; split_ifs with h <;> simp [h]

/-- An agent's step faults only where the agent is enabled. -/
theorem asAgent_fault {a : Agent} {s : State} {f : Fault} {k : State → Host.Outcome State Fault Refusal} :
    asAgent a s k = .fault f ↔ enabled a s = true ∧ k s = .fault f := by
  unfold asAgent; split_ifs with h <;> simp [h]

/-- An agent's step is refused where the agent is not enabled, or by its meaning. -/
theorem asAgent_refused {a : Agent} {s : State} {r : Refusal} {k : State → Host.Outcome State Fault Refusal} :
    asAgent a s k = .refused r ↔
      (enabled a s = false ∧ r = .notEnabled a) ∨ (enabled a s = true ∧ k s = .refused r) := by
  unfold asAgent; split_ifs with h <;> simp [h, eq_comm]

/-- Where the agent is enabled, its step is the meaning. -/
theorem asAgent_of_enabled {a : Agent} {s : State} {k : State → Host.Outcome State Fault Refusal}
    (h : enabled a s = true) : asAgent a s k = k s := if_pos h

/-- Where the agent is not enabled, it has no step (R156). -/
theorem asAgent_of_not_enabled {a : Agent} {s : State} {k : State → Host.Outcome State Fault Refusal}
    (h : enabled a s = false) : asAgent a s k = .refused (.notEnabled a) := if_neg (by simp [h])

/-- HOST is enabled exactly when no event is pending (R150). -/
theorem enabled_host {s : State} : enabled .host s = true ↔ s.tePending = false ∧ s.fpePending = false := by
  simp [enabled]

/-- Under the guards of R100 a HOST operation is its meaning. -/
theorem hostOp_of_guards {s : State} {k : State → Host.Outcome State Fault Refusal} (ht : s.tePending = false)
    (hf : s.fpePending = false) (hi : s.initialised = true) : hostOp s k = k s := by
  unfold hostOp; rw [asAgent_of_enabled (enabled_host.mpr ⟨ht, hf⟩)]; simp [hi]

/-- A HOST operation answers a next state only under the guards of R100. -/
theorem hostOp_next {s t : State} {k : State → Host.Outcome State Fault Refusal} :
    hostOp s k = .next t ↔
      (s.tePending = false ∧ s.fpePending = false) ∧ s.initialised = true ∧ k s = .next t := by
  unfold hostOp; rw [asAgent_next, enabled_host]; split_ifs with h <;> simp [h]

/-- A HOST operation faults only under the guards of R100. -/
theorem hostOp_fault {s : State} {f : Fault} {k : State → Host.Outcome State Fault Refusal} :
    hostOp s k = .fault f ↔
      (s.tePending = false ∧ s.fpePending = false) ∧ s.initialised = true ∧ k s = .fault f := by
  unfold hostOp; rw [asAgent_fault, enabled_host]; split_ifs with h <;> simp [h]

/-- A HOST operation is refused for want of a step, before INIT, or by its meaning. -/
theorem hostOp_refused {s : State} {r : Refusal} {k : State → Host.Outcome State Fault Refusal}
    (h : hostOp s k = .refused r) : r = .notEnabled .host ∨ r = .uninitialised ∨ k s = .refused r := by
  obtain ⟨-, rfl⟩ | ⟨-, h⟩ := asAgent_refused.mp h
  · exact .inl rfl
  · split_ifs at h with hi
    · exact .inr (.inr h)
    · exact .inr (.inl (Host.Outcome.refused.inj h).symm)

/-- SUBMIT under the guards of R100. -/
theorem execSubmit_of_guards {s : State} (segs : List Segment) (ht : s.tePending = false)
    (hf : s.fpePending = false) (hi : s.initialised = true) :
    execSubmit segs s =
      match s.state with
      | .busy => .next (s.respond (statusResponse .busy))
      | .ready =>
        match build s.cfg segs s.buf with
        | none => .next (s.respond (statusResponse .overflow))
        | some (m, n) => .next ((s.stage m n).respond (statusResponse .ok)) := by
  unfold execSubmit; exact hostOp_of_guards ht hf hi

/-- START under the guards of R100. -/
theorem execStart_of_guards {s : State} (ht : s.tePending = false) (hf : s.fpePending = false)
    (hi : s.initialised = true) :
    execStart s =
      match s.state with
      | .busy => .next (s.respond (statusResponse .busy))
      | .ready =>
        if s.pending then
          if s.len = 0 then .fault .startEmptyBuffer
          else .next (s.launch.respond (statusResponse .ok))
        else .next (s.respond (statusResponse .overflow)) := by
  unfold execStart; exact hostOp_of_guards ht hf hi

theorem execInit_cases {s t : State} (h : execInit s = .next t) :
    (s.tePending = false ∧ s.fpePending = false) ∧ s.initialised = false ∧ t = s.initialise.respond voidResponse := by
  unfold execInit at h
  obtain ⟨he, h⟩ := asAgent_next.mp h
  refine ⟨enabled_host.mp he, ?_⟩
  split_ifs at h with hi
  exact ⟨by simpa using hi, (Host.Outcome.next.inj h).symm⟩

theorem execSubmit_cases {s t : State} {segs : List Segment} (h : execSubmit segs s = .next t) :
    ((s.tePending = false ∧ s.fpePending = false) ∧ s.initialised = true) ∧
    ((s.state = .busy ∧ t = s.respond (statusResponse .busy)) ∨
     (s.state = .ready ∧ maxPulses < totalCount segs ∧ t = s.respond (statusResponse .overflow)) ∨
     (s.state = .ready ∧ totalCount segs ≤ maxPulses ∧
       t = (s.stage (Memory.writeFrom s.buf 0 (expand s.cfg segs)) (totalCount segs)).respond (statusResponse .ok))) := by
  unfold execSubmit at h
  obtain ⟨hp, hi, h⟩ := hostOp_next.mp h
  refine ⟨⟨hp, hi⟩, ?_⟩
  cases hs : s.state with
  | busy => simp only [hs] at h; exact .inl ⟨rfl, (Host.Outcome.next.inj h).symm⟩
  | ready =>
    simp only [hs] at h
    obtain ⟨hl, hb⟩ | ⟨hl, hb⟩ := build_cases s.cfg segs s.buf <;> simp only [hb] at h
    · exact .inr (.inl ⟨rfl, hl, (Host.Outcome.next.inj h).symm⟩)
    · exact .inr (.inr ⟨rfl, hl, (Host.Outcome.next.inj h).symm⟩)

theorem execStart_cases {s t : State} (h : execStart s = .next t) :
    ((s.tePending = false ∧ s.fpePending = false) ∧ s.initialised = true) ∧
    ((s.state = .busy ∧ t = s.respond (statusResponse .busy)) ∨
     (s.state = .ready ∧ s.pending = false ∧ t = s.respond (statusResponse .overflow)) ∨
     (s.state = .ready ∧ s.pending = true ∧ s.len ≠ 0 ∧ t = s.launch.respond (statusResponse .ok))) := by
  unfold execStart at h
  obtain ⟨hp, hi, h⟩ := hostOp_next.mp h
  refine ⟨⟨hp, hi⟩, ?_⟩
  cases hs : s.state with
  | busy => simp only [hs] at h; exact .inl ⟨rfl, (Host.Outcome.next.inj h).symm⟩
  | ready =>
    simp only [hs] at h
    split_ifs at h with h1 h2
    · exact .inr (.inr ⟨rfl, h1, h2, (Host.Outcome.next.inj h).symm⟩)
    · exact .inr (.inl ⟨rfl, by simpa using h1, (Host.Outcome.next.inj h).symm⟩)

theorem execStop_cases {s t : State} (h : execStop s = .next t) :
    ((s.tePending = false ∧ s.fpePending = false) ∧ s.initialised = true) ∧
      t = s.haltEmission.respond voidResponse := by
  obtain ⟨hp, hi, h⟩ := hostOp_next.mp h
  exact ⟨⟨hp, hi⟩, (Host.Outcome.next.inj h).symm⟩

theorem execStatus_cases {s t : State} (h : execStatus s = .next t) :
    ((s.tePending = false ∧ s.fpePending = false) ∧ s.initialised = true) ∧
      t = s.respond (statusResponse s.state.status) := by
  obtain ⟨hp, hi, h⟩ := hostOp_next.mp h
  exact ⟨⟨hp, hi⟩, (Host.Outcome.next.inj h).symm⟩

theorem execCapacity_cases {s t : State} (h : execCapacity s = .next t) :
    ((s.tePending = false ∧ s.fpePending = false) ∧ s.initialised = true) ∧
      t = s.respond (countResponse maxPulses) := by
  obtain ⟨hp, hi, h⟩ := hostOp_next.mp h
  exact ⟨⟨hp, hi⟩, (Host.Outcome.next.inj h).symm⟩

theorem execPeriodElapsed_cases {s t : State} (h : execPeriodElapsed s = .next t) :
    s.timRunning = true ∧
    ((s.xfEn = true ∧ 0 < s.xfRem ∧ s.xfSrc < maxPulses ∧
        t = s.completePeriod.stream (Memory.read s.buf s.xfSrc)) ∨
     ((s.xfEn = false ∨ s.xfRem = 0) ∧ t = s.completePeriod)) := by
  unfold execPeriodElapsed at h
  obtain ⟨he, h⟩ := asAgent_next.mp h
  refine ⟨he, ?_⟩
  split_ifs at h with h1 h2
  · have h1' : s.xfEn = true ∧ 0 < s.xfRem := by simpa using h1
    exact .inl ⟨h1'.1, h1'.2, h2, (Host.Outcome.next.inj h).symm⟩
  · refine .inr ⟨?_, (Host.Outcome.next.inj h).symm⟩
    by_cases hx : s.xfEn = true
    · have : ¬ 0 < s.xfRem := by simpa [hx] using h1
      exact .inr (by omega)
    · exact .inl (by simpa using hx)

theorem execIsrTe_cases {s t : State} (h : execIsrTe s = .next t) :
    s.tePending = true ∧ t = s.ackTe.armPeriodIrq := by
  obtain ⟨he, h⟩ := asAgent_next.mp h
  exact ⟨he, (Host.Outcome.next.inj h).symm⟩

theorem execIsrFpe_cases {s t : State} (h : execIsrFpe s = .next t) :
    (s.fpePending = true ∧ s.tePending = false) ∧ t = s.ackFpe.haltEmission := by
  obtain ⟨he, h⟩ := asAgent_next.mp h
  exact ⟨by simpa [enabled] using he, (Host.Outcome.next.inj h).symm⟩

/-- Everything an instruction can do when it answers a next state: the nine kinds of write, each with its guards. -/
theorem exec_cases {i : Instr} {s t : State} (h : exec i s = .next t) :
    (i = .init ∧ s.initialised = false ∧ t = s.initialise.respond voidResponse) ∨
    (∃ w, t = s.respond w ∧ i.isCommand = true) ∨
    (∃ segs, i = .submit segs ∧ s.state = .ready ∧
      t = (s.stage (Memory.writeFrom s.buf 0 (expand s.cfg segs)) (totalCount segs)).respond (statusResponse .ok)) ∨
    (i = .start ∧ s.state = .ready ∧ s.pending = true ∧ s.len ≠ 0 ∧ t = s.launch.respond (statusResponse .ok)) ∨
    (i = .stop ∧ t = s.haltEmission.respond voidResponse) ∨
    (i = .periodElapsed ∧ s.timRunning = true ∧ s.xfEn = true ∧ 0 < s.xfRem ∧
      t = s.completePeriod.stream (Memory.read s.buf s.xfSrc)) ∨
    (i = .periodElapsed ∧ s.timRunning = true ∧ (s.xfEn = false ∨ s.xfRem = 0) ∧ t = s.completePeriod) ∨
    (i = .isrTe ∧ s.tePending = true ∧ t = s.ackTe.armPeriodIrq) ∨
    (i = .isrFpe ∧ s.fpePending = true ∧ s.tePending = false ∧ t = s.ackFpe.haltEmission) := by

  cases i with
  | init => have := execInit_cases h; tauto
  | submit segs =>
    obtain ⟨-, ⟨hs, e⟩ | ⟨hs, hl, e⟩ | ⟨hs, hl, e⟩⟩ := execSubmit_cases h
    · exact .inr (.inl ⟨_, e, rfl⟩)
    · exact .inr (.inl ⟨_, e, rfl⟩)
    · exact .inr (.inr (.inl ⟨_, rfl, hs, e⟩))
  | start =>
    obtain ⟨-, ⟨hs, e⟩ | ⟨hs, hl, e⟩ | ⟨hs, hp, hl, e⟩⟩ := execStart_cases h
    · exact .inr (.inl ⟨_, e, rfl⟩)
    · exact .inr (.inl ⟨_, e, rfl⟩)
    · tauto
  | stop => have := execStop_cases h; tauto
  | status => exact .inr (.inl ⟨_, (execStatus_cases h).2, rfl⟩)
  | capacity => exact .inr (.inl ⟨_, (execCapacity_cases h).2, rfl⟩)
  | periodElapsed =>
    obtain ⟨hr, ⟨hx, hm, -, e⟩ | ⟨hx, e⟩⟩ := execPeriodElapsed_cases h
    · exact .inr (.inr (.inr (.inr (.inr (.inl ⟨rfl, hr, hx, hm, e⟩)))))
    · exact .inr (.inr (.inr (.inr (.inr (.inr (.inl ⟨rfl, hr, hx, e⟩))))))
  | isrTe =>
    obtain ⟨ht, e⟩ := execIsrTe_cases h
    exact .inr (.inr (.inr (.inr (.inr (.inr (.inr (.inl ⟨rfl, ht, e⟩)))))))
  | isrFpe =>
    obtain ⟨⟨hf, ht⟩, e⟩ := execIsrFpe_cases h
    exact .inr (.inr (.inr (.inr (.inr (.inr (.inr (.inr ⟨rfl, hf, ht, e⟩)))))))

/-- START of a staged buffer that is not empty. -/
theorem exec_start_run {s : State} (ht : s.tePending = false) (hf : s.fpePending = false) (hi : s.initialised = true)
    (hs : s.state = .ready) (hp : s.pending = true) (hl : s.len ≠ 0) :
    exec .start s = .next (s.launch.respond (statusResponse .ok)) := by
  simp only [exec]; rw [execStart_of_guards ht hf hi]; simp [hs, hp, hl]

/-- STOP under the guards of R100. -/
theorem exec_stop {s : State} (ht : s.tePending = false) (hf : s.fpePending = false) (hi : s.initialised = true) :
    exec .stop s = .next (s.haltEmission.respond voidResponse) := by
  simp only [exec, execStop]; rw [hostOp_of_guards ht hf hi]

/-- A period that streams nothing (R128). -/
theorem exec_period_repeat {s : State} (hr : s.timRunning = true) (h0 : s.xfRem = 0) :
    exec .periodElapsed s = .next s.completePeriod := by
  simp only [exec, execPeriodElapsed]; rw [asAgent_of_enabled (a := .timer) (s := s) hr]; simp [h0]

/-- A period that streams a slot (R124). -/
theorem exec_period_stream {s : State} (hr : s.timRunning = true) (hx : s.xfEn = true) (h0 : 0 < s.xfRem)
    (hs : s.xfSrc < maxPulses) :
    exec .periodElapsed s = .next (s.completePeriod.stream (Memory.read s.buf s.xfSrc)) := by
  simp only [exec, execPeriodElapsed]; rw [asAgent_of_enabled (a := .timer) (s := s) hr]; simp [h0, hx, hs]

/-- The transfer-exhausted handler with its event pending. -/
theorem exec_isrTe {s : State} (h : s.tePending = true) : exec .isrTe s = .next s.ackTe.armPeriodIrq := by
  simp only [exec, execIsrTe]; rw [asAgent_of_enabled (a := .isrTe) (s := s) h]

/-- The final-period-elapsed handler with its event pending and TE not. -/
theorem exec_isrFpe {s : State} (h : s.fpePending = true) (ht : s.tePending = false) :
    exec .isrFpe s = .next s.ackFpe.haltEmission := by
  simp only [exec, execIsrFpe]; rw [asAgent_of_enabled (a := .isrFpe) (s := s) (by simp [enabled, h, ht])]

/-- Only PERIOD_ELAPSED is refused for the index it would stream from (R46, log 13). -/
theorem exec_noSuchSlot {i : Instr} {s : State} (h : exec i s = .refused .noSuchSlot) :
    s.timRunning = true ∧ 0 < s.xfRem ∧ maxPulses ≤ s.xfSrc := by
  cases i <;> simp only [exec] at h
  case periodElapsed =>
    obtain ⟨-, h⟩ | ⟨he, h⟩ := asAgent_refused.mp h
    · cases h
    · split_ifs at h with h1 h2
      have h1' : s.xfEn = true ∧ 0 < s.xfRem := by simpa using h1
      exact ⟨he, h1'.2, Nat.le_of_not_lt h2⟩
  case init =>
    obtain ⟨-, h⟩ | ⟨-, h⟩ := asAgent_refused.mp h
    · cases h
    · split_ifs at h
      cases h
  case isrTe => obtain ⟨-, h⟩ | ⟨-, h⟩ := asAgent_refused.mp h <;> cases h
  case isrFpe => obtain ⟨-, h⟩ | ⟨-, h⟩ := asAgent_refused.mp h <;> cases h
  case submit segs =>
    obtain h | h | h := hostOp_refused h
    · cases h
    · cases h
    · split at h
      · cases h
      · split at h <;> cases h
  case start =>
    obtain h | h | h := hostOp_refused h
    · cases h
    · cases h
    · split at h
      · cases h
      · split_ifs at h
  all_goals obtain h | h | h := hostOp_refused h <;> cases h

/-- A pending handler is ISR_TE with its event pending, or ISR_FPE with its event pending and TE not (R147). -/
theorem pendingHandler_some {s : State} {h : Instr} (hh : pendingHandler s = some h) :
    (h = .isrTe ∧ s.tePending = true) ∨ (h = .isrFpe ∧ s.fpePending = true ∧ s.tePending = false) := by
  unfold pendingHandler at hh
  split_ifs at hh with ht hf
  · exact .inl ⟨(Option.some.inj hh).symm, ht⟩
  · exact .inr ⟨(Option.some.inj hh).symm, hf, by simpa using ht⟩

/-- No handler is pending exactly when neither event is. -/
theorem pendingHandler_none {s : State} : pendingHandler s = none ↔ s.tePending = false ∧ s.fpePending = false := by
  unfold pendingHandler; split_ifs <;> simp_all

/-- Everything fetching finds where the schedule is silent. -/
theorem fetchUnscheduled_cases (s : State) :
    (∃ h, pendingHandler s = some h ∧ s.timRunning = true ∧ s.passedOver < Config.freeTurn s.freeTurns ∧
      fetchUnscheduled s = .run .periodElapsed { s with passedOver := s.passedOver + 1 }) ∨
    (∃ h, pendingHandler s = some h ∧ (s.timRunning = false ∨ Config.freeTurn s.freeTurns ≤ s.passedOver) ∧
      fetchUnscheduled s = .run h { s with passedOver := 0, freeTurns := s.freeTurns + 1 }) ∨
    (pendingHandler s = none ∧ s.timRunning = true ∧ fetchUnscheduled s = .run .periodElapsed s) ∨
    (pendingHandler s = none ∧ s.timRunning = false ∧ fetchUnscheduled s = .idle) := by
  unfold fetchUnscheduled
  cases hp : pendingHandler s with
  | none => cases hr : s.timRunning <;> simp
  | some h =>
    cases hr : s.timRunning
    · simp
    · by_cases hl : s.passedOver < Config.freeTurn s.freeTurns
      · simp [hl]
      · simp [hl, Nat.le_of_not_lt hl]

/-- Everything fetching finds to run: where it came from in the schedule, and the state it runs in. -/
theorem fetch_cases {s s' : State} {i : Instr} (h : fetch s = .run i s') :
    (s.sched = [] ∧ fetchUnscheduled s = .run i s') ∨
    (∃ ctx frame rest, s.sched = .host ctx frame :: rest ∧ pendingHandler s = some i ∧ s' = s) ∨
    (∃ frame rest left, s.sched = .host .caller frame :: rest ∧ pendingHandler s = none ∧ i.isCommand = true ∧
      decode frame = .ok (i, left) ∧ s' = { s with sched := requeue .caller left rest }) ∨
    (∃ label rest left, s.sched = .internal label :: rest ∧ i.isCommand = false ∧ decode [label] = .ok (i, left) ∧
      s' = { s with sched := rest }) := by
  unfold fetch at h
  split at h
  · exact .inl ⟨by assumption, h⟩
  · rename_i ctx frame rest hs
    cases hp : pendingHandler s with
    | some j =>
      simp only [hp] at h
      obtain ⟨rfl, rfl⟩ := Fetched.run.inj h
      exact .inr (.inl ⟨ctx, frame, rest, hs, rfl, rfl⟩)
    | none =>
      simp only [hp] at h
      unfold fetchHost at h
      split at h
      · cases h
      · rename_i j left hd
        split_ifs at h with hc
        split at h
        · obtain ⟨rfl, rfl⟩ := Fetched.run.inj h
          exact .inr (.inr (.inl ⟨frame, rest, left, hs, rfl, hc, hd, rfl⟩))
        · cases h
  · rename_i label rest hs
    unfold fetchInternal at h
    split at h
    · cases h
    · rename_i j left hd
      split_ifs at h with hc
      obtain ⟨rfl, rfl⟩ := Fetched.run.inj h
      exact .inr (.inr (.inr ⟨label, rest, left, hs, by simpa using hc, hd, rfl⟩))

/-- Whatever fetching finds to run, it runs in the state it was fetched in, but for the schedule and the free choices. -/
theorem fetch_run {s s' : State} {i : Instr} (h : fetch s = .run i s') : SameBut s s' := by
  rcases fetch_cases h with ⟨-, h⟩ | ⟨_, _, _, -, -, rfl⟩ | ⟨_, _, _, -, -, -, -, rfl⟩ | ⟨_, _, _, -, -, -, rfl⟩
  · rcases fetchUnscheduled_cases s with ⟨_, -, -, -, e⟩ | ⟨_, -, -, e⟩ | ⟨-, -, e⟩ | ⟨-, -, e⟩ <;> rw [e] at h <;>
      first | (obtain ⟨-, rfl⟩ := Fetched.run.inj h; rfl) | cases h
  all_goals rfl

/-- What fetching an operation of HOST took: no event was pending, and the frame came from the caller context. -/
theorem fetch_run_command {s s' : State} {i : Instr} (h : fetch s = .run i s') (hc : i.isCommand = true) :
    s.tePending = false ∧ s.fpePending = false ∧
    ∃ frame rest left, s.sched = .host .caller frame :: rest ∧ decode frame = .ok (i, left) := by
  have hn : ∀ j, pendingHandler s = some j → i ≠ j := by
    rintro j hj rfl
    rcases pendingHandler_some hj with ⟨rfl, -⟩ | ⟨rfl, -⟩ <;> cases hc
  rcases fetch_cases h with ⟨-, h⟩ | ⟨_, _, _, -, hp, -⟩ | ⟨f, r, l, hs, hp, -, hd, -⟩ | ⟨_, _, _, -, hi, -⟩
  · rcases fetchUnscheduled_cases s with ⟨_, -, -, -, e⟩ | ⟨_, hp, -, e⟩ | ⟨-, -, e⟩ | ⟨-, -, e⟩ <;> rw [e] at h
    · obtain ⟨rfl, -⟩ := Fetched.run.inj h; cases hc
    · exact absurd (Fetched.run.inj h).1.symm (hn _ hp)
    · obtain ⟨rfl, -⟩ := Fetched.run.inj h; cases hc
    · cases h
  · exact absurd rfl (hn _ hp)
  · have hp := pendingHandler_none.mp hp
    exact ⟨hp.1, hp.2, f, r, l, hs, hd⟩
  · rw [hc] at hi; cases hi

/-- A step that answers a next state waited, or ran one instruction in the state it was fetched in. -/
theorem step_next {s t : State} (h : step s = .next t) :
    t = s ∨ ∃ i s', SameBut s s' ∧ fetch s = .run i s' ∧ exec i s' = .next t := by
  unfold step at h
  split at h
  · exact .inl (Host.Outcome.next.inj h).symm
  · rename_i i s' hf; exact .inr ⟨i, s', fetch_run hf, hf, h⟩
  · cases h

/-- No instruction writes the schedule or the use of free choices. -/
theorem exec_model_fields {i : Instr} {s t : State} (h : exec i s = .next t) :
    t.sched = s.sched ∧ t.freeTurns = s.freeTurns ∧ t.passedOver = s.passedOver := by
  rcases exec_cases h with ⟨-, -, rfl⟩ | ⟨_, rfl, -⟩ | ⟨_, -, -, rfl⟩ | ⟨-, -, -, -, rfl⟩ | ⟨-, rfl⟩ | ⟨-, -, -, -, rfl⟩ |
    ⟨-, -, -, rfl⟩ | ⟨-, -, rfl⟩ | ⟨-, -, -, rfl⟩ <;> simp

/-- A step where the schedule is silent. -/
theorem step_unscheduled {s : State} (hs : s.sched = []) :
    step s = match fetchUnscheduled s with
      | .idle => .next s
      | .run i s' => exec i s'
      | .refuse r => .refused r := by
  have h : fetch s = fetchUnscheduled s := by unfold fetch; split <;> simp_all
  cases hf : fetchUnscheduled s <;> simp only [step, h, hf]

/-- The invariant does not look at the schedule or at the use of free choices. -/
theorem Inv.sameBut {s s' : State} (hI : Inv s) (h : SameBut s s') : Inv s' := by
  rw [h]
  exact ⟨hI.memory, hI.length, hI.source, hI.remaining, hI.busy_iff_running, hI.running_iff_pwm, hI.busy_unstaged,
    hI.position, hI.slots, hI.reload, hI.observed, hI.te, hI.fpe, hI.armed, hI.booted, fun h => by
      have := hI.unbooted h
      unfold AtReset at this ⊢
      rw [this]⟩

end Sys2Proof.Machine
end

