-- ==== Sys2Proof/Laws/PerInstr.lean ====
section
/-! SUPPORT. A statement about every instruction as syntax: its encoding is as long as R64 reads from its first word. -/

/-- The encoding of a well-formed instruction has the length its first word says (R64). -/
def Sys2Proof.Laws.FrameLength.Statement (i : Sys2Proof.Instr) : Prop :=
  i.wellFormed = true → ∃ w ws, Sys2Proof.encode i = w :: ws ∧ (w :: ws).length = Sys2Proof.frameLength w

namespace Sys2Proof.Laws.FrameLength

theorem init : Statement .init := fun _ => ⟨_, _, rfl, by decide⟩

/-- `nseg` of the encoded command word is the number of segments (R61, R74). -/
theorem nsegOf_commandWord (n : Nat) (h : n ≤ 65535) :
    (nsegOf (commandWord 0x1 (BitVec.ofNat 16 n))).toNat = n := by
  have e : nsegOf (commandWord 0x1 (BitVec.ofNat 16 n)) = BitVec.ofNat 16 n := by
    apply BitVec.eq_of_getLsbD_eq
    intro k hk
    simp only [nsegOf, commandWord, BitVec.getLsbD_extractLsb', BitVec.getLsbD_append]
    simp [hk]
  rw [e, BitVec.toNat_ofNat, Nat.mod_eq_of_lt (by omega)]

/-- `op` of the encoded command word (R61). -/
theorem opOf_commandWord (op : BitVec 4) (n : BitVec 16) : opOf (commandWord op n) = op := by
  apply BitVec.eq_of_getLsbD_eq
  intro k hk
  simp only [opOf, commandWord, BitVec.getLsbD_extractLsb', BitVec.getLsbD_append]
  simp [hk, show ¬ 28 + k < 16 by omega, show 28 + k - 16 = 12 + k by omega]

theorem submit (segs : List Segment) : Statement (.submit segs) := by
  intro h
  have h' : segs.length ≤ 65535 := by simpa [Instr.wellFormed] using h
  refine ⟨_, _, rfl, ?_⟩
  rw [frameLength, if_pos (opOf_commandWord _ _), nsegOf_commandWord _ h', List.length_cons, length_payload]
  omega

theorem start : Statement .start := fun _ => ⟨_, _, rfl, by decide⟩

theorem stop : Statement .stop := fun _ => ⟨_, _, rfl, by decide⟩

theorem status : Statement .status := fun _ => ⟨_, _, rfl, by decide⟩

theorem capacity : Statement .capacity := fun _ => ⟨_, _, rfl, by decide⟩

theorem periodElapsed : Statement .periodElapsed := fun _ => ⟨_, _, rfl, by decide⟩

theorem isrTe : Statement .isrTe := fun _ => ⟨_, _, rfl, by decide⟩

theorem isrFpe : Statement .isrFpe := fun _ => ⟨_, _, rfl, by decide⟩

end Sys2Proof.Laws.FrameLength
end

