-- ==== Sys2Proof/Laws/Run.lean ====
section
/-! SUPPORT. Sequences of steps: how they unroll and compose, and that they are the host's runs. -/

namespace Sys2Proof.Machine

/-- A run whose first step answers goes on from the state it answers. -/
theorem steps_succ {k : Nat} {s t : State} (h : step s = .next t) : steps (k + 1) s = steps k t := by
  simp only [steps, h]

/-- A run composes. -/
theorem steps_add {a b : Nat} {s t : State} (h : steps a s = .next t) : steps (a + b) s = steps b t := by
  induction a generalizing s with
  | zero =>
    obtain rfl := Host.Outcome.next.inj h
    rw [Nat.zero_add]
  | succ a ih =>
    rw [Nat.succ_add]
    cases hs : step s with
    | next s' => rw [steps_succ hs] at h ⊢; exact ih h
    | fault f => simp [steps, hs] at h
    | refused r => simp [steps, hs] at h

/-- `steps` is the host's run of the machine. -/
theorem steps_eq_run (k : Nat) (s : State) : steps k s = Host.Core.run Sys2Proof.core k s := by
  induction k generalizing s with
  | zero => rfl
  | succ k ih =>
    simp only [steps, Host.Core.run, Sys2Proof.core]
    cases step s with
    | next t => exact ih t
    | fault f => rfl
    | refused r => rfl

/-- A step whose entry is HOST's START or STOP, no event pending. -/
theorem step_hostTurn {i : Instr} (hi : i = .start ∨ i = .stop) {s : State} {rest : List Turn}
    (hs : s.sched = hostTurn i :: rest) (ht : s.tePending = false) (hf : s.fpePending = false) :
    step s = exec i { s with sched := rest } := by
  have hd : decode (encode i) = .ok (i, []) ∧ i.isCommand = true := by rcases hi with rfl | rfl <;> exact ⟨rfl, rfl⟩
  simp [step, fetch, pendingHandler, hs, hostTurn, ht, hf, fetchHost, hd, requeue]

/-- A step whose entry is the label of PERIOD_ELAPSED. -/
theorem step_tickTurn {s : State} {rest : List Turn} (hs : s.sched = tickTurn :: rest) :
    step s = exec .periodElapsed { s with sched := rest } := by
  simp only [step, fetch, hs, tickTurn]; rfl

/-- A step whose entry is the label of ISR_TE. -/
theorem step_isrTeTurn {s : State} {rest : List Turn} (hs : s.sched = isrTeTurn :: rest) :
    step s = exec .isrTe { s with sched := rest } := by
  simp only [step, fetch, hs, isrTeTurn]; rfl

/-- A step whose entry is the label of ISR_FPE. -/
theorem step_isrFpeTurn {s : State} {rest : List Turn} (hs : s.sched = isrFpeTurn :: rest) :
    step s = exec .isrFpe { s with sched := rest } := by
  simp only [step, fetch, hs, isrFpeTurn]; rfl

/-- `n` periods with nothing left to stream repeat the reload value, and raise FPE where the interrupt is enabled. -/
theorem steps_repeat (n : Nat) (s : State) (rest : List Turn) (hs : s.sched = List.replicate n tickTurn ++ rest)
    (hr : s.timRunning = true) (h0 : s.xfRem = 0) :
    steps n s = .next
      { s with
        sched := rest, emitted := s.emitted ++ List.replicate n s.timReload
        fpePending := s.fpePending || (s.timPeIrqEn && decide (0 < n)) } := by
  induction n generalizing s with
  | zero => simp at hs; subst hs; simp [steps]
  | succ n ih =>
    have e := step_tickTurn (s := s) (rest := List.replicate n tickTurn ++ rest) (by rw [hs]; simp [List.replicate_succ])
    rw [exec_period_repeat (s := { s with sched := List.replicate n tickTurn ++ rest }) hr h0] at e
    rw [steps_succ e, ih (State.completePeriod { s with sched := List.replicate n tickTurn ++ rest }) rfl hr h0]
    simp [List.replicate_succ, State.completePeriod, fpeRaisedByElapse]
    cases s.fpePending <;> cases s.timPeIrqEn <;> simp

/-- `n` periods that each stream a slot, with the interrupt disabled and no event pending: the reload value goes out first, then
the slots from `xf_src` on, and TE is raised by the period that streams the last. -/
theorem steps_stream (n : Nat) (s : State) (rest : List Turn) (hs : s.sched = List.replicate n tickTurn ++ rest)
    (hr : s.timRunning = true) (hx : s.xfEn = true) (hn : n ≤ s.xfRem) (hsrc : s.xfSrc + s.xfRem ≤ maxPulses)
    (hi : s.timPeIrqEn = false) (hte : s.tePending = false) (hp : 0 < n) :
    steps n s = .next
      { s with
        sched := rest
        emitted := s.emitted ++ [s.timReload] ++ (List.range (n - 1)).map (fun k => Memory.read s.buf (s.xfSrc + k))
        timReload := Memory.read s.buf (s.xfSrc + n - 1), xfSrc := s.xfSrc + n, xfRem := s.xfRem - n
        tePending := decide (s.xfRem = n) } := by
  induction n generalizing s with
  | zero => omega
  | succ n ih =>
    have e := step_tickTurn (s := s) (rest := List.replicate n tickTurn ++ rest) (by rw [hs]; simp [List.replicate_succ])
    rw [exec_period_stream (s := { s with sched := List.replicate n tickTurn ++ rest }) hr hx (show 0 < s.xfRem by omega)
      (show s.xfSrc < maxPulses by omega)] at e
    rw [steps_succ e]
    by_cases hn0 : n = 0
    · subst hn0
      simp [steps, State.completePeriod, State.stream, hi, hte, fpeRaisedByElapse, teRaisedByStream]
      omega
    · rw [ih (State.stream (State.completePeriod { s with sched := List.replicate n tickTurn ++ rest })
          (Memory.read s.buf s.xfSrc)) rfl hr hx (show n ≤ s.xfRem - 1 by omega)
          (show s.xfSrc + 1 + (s.xfRem - 1) ≤ maxPulses by omega) hi
          (by simp [State.stream, State.completePeriod, teRaisedByStream, hte]; omega) (by omega)]
      obtain ⟨m, rfl⟩ : ∃ m, n = m + 1 := ⟨n - 1, by omega⟩
      have a1 : ∀ a, s.xfSrc + 1 + a = s.xfSrc + (a + 1) := by intro a; omega
      have a2 : (s.xfRem - 1 = m + 1) = (s.xfRem = m + 1 + 1) := by rw [eq_iff_iff]; omega
      have a3 : s.xfRem - 1 - (m + 1) = s.xfRem - (m + 1 + 1) := by omega
      have a4 : s.xfSrc + 1 + (m + 1) - 1 = s.xfSrc + (m + 1 + 1) - 1 := by omega
      simp only [State.stream, State.completePeriod, hi, a2, a3, a4, fpeRaisedByElapse]
      simp [List.range_succ_eq_map, Function.comp_def, a1]

end Sys2Proof.Machine
end

