-- ==== Sys2Proof/Tests/Slice0.lean ====
section
/-! SUPPORT. Small tests of one step each, with expected values from 95_test_vectors.md (the row is named), and a witness for
the hypotheses of each statement. -/

namespace Sys2Proof.Machine.Tests

/-! ### Words and frames -/

/-- R74: 65535 segments have an encoding, 65536 have none. -/
theorem test_wellFormed_submit :
    (Instr.submit (List.replicate 65535 ⟨0, 0⟩)).wellFormed = true ∧
      (Instr.submit (List.replicate 65536 ⟨0, 0⟩)).wellFormed = false := by
  simp only [Instr.wellFormed, List.length_replicate]
  decide

/-- Section 2.6 of the vectors, `op` 0x0: bits 0000 000000000000 0000000000000000. -/
theorem test_decode_init : decode [0b00000000000000000000000000000000] = .ok (.init, []) := rfl

/-- Section 2.6: `op` 0001, `nseg` 1, then count 1 and frequency 1000 (R61, R63). -/
theorem test_decode_submit :
    decode [0b00010000000000000000000000000001, 0x00000001, 0x000003E8] = .ok (.submit [⟨1, 1000⟩], []) := rfl

/-- Section 2.6: three segments, in order. -/
theorem test_decode_submit_three :
    decode [0x10000003, 0x00000002, 0x000003E8, 0x00000003, 0x000001F4, 0x00000002, 0x000007D0] =
      .ok (.submit [⟨2, 1000⟩, ⟨3, 500⟩, ⟨2, 2000⟩], []) := rfl

/-- Section 2.6: `op` 0010. -/
theorem test_decode_start : decode [0b00100000000000000000000000000000] = .ok (.start, []) := rfl

/-- Section 2.6: `op` 0011. -/
theorem test_decode_stop : decode [0b00110000000000000000000000000000] = .ok (.stop, []) := rfl

/-- Section 2.6: `op` 0100. -/
theorem test_decode_status : decode [0b01000000000000000000000000000000] = .ok (.status, []) := rfl

/-- Section 2.6: `op` 0101. -/
theorem test_decode_capacity : decode [0b01010000000000000000000000000000] = .ok (.capacity, []) := rfl

/-- Section 2.6: `op` 1000. -/
theorem test_decode_periodElapsed : decode [0b10000000000000000000000000000000] = .ok (.periodElapsed, []) := rfl

/-- Section 2.6: `op` 1001. -/
theorem test_decode_isrTe : decode [0b10010000000000000000000000000000] = .ok (.isrTe, []) := rfl

/-- Section 2.6: `op` 1010. -/
theorem test_decode_isrFpe : decode [0b10100000000000000000000000000000] = .ok (.isrFpe, []) := rfl

/-- Section 2.6: the reserved words it lists. -/
theorem test_decode_reserved :
    decode [0x60000000] = .error .reservedWord ∧ decode [0x70000000] = .error .reservedWord ∧
      decode [0xB0000000] = .error .reservedWord ∧ decode [0xF0000000] = .error .reservedWord ∧
      decode [0x20010000] = .error .reservedWord ∧ decode [0x40000001] = .error .reservedWord ∧
      decode [0x10000002, 0x00000001, 0x000003E8] = .error .shortFrame := ⟨rfl, rfl, rfl, rfl, rfl, rfl, rfl⟩

/-- Section 2.6, `submit (1,50) (1,50000)`, written by the encoder. -/
theorem test_encode_submit :
    encode (.submit [⟨1, 50⟩, ⟨1, 50000⟩]) = [0x10000002, 0x00000001, 0x00000032, 0x00000001, 0x0000C350] := by decide

/-- The table's numbering: SUBMIT given as three words, the count above the first word (R63). -/
theorem test_decodeTableWord :
    decodeTableWord 32 0x20000000 = some .start ∧
      decodeTableWord 96 0x000003E80000000110000001 = some (.submit [⟨1, 1000⟩]) ∧
      decodeTableWord 32 0x10000001 = some (.submit [⟨0, 0⟩]) ∧ decodeTableWord 32 0x60000000 = none := by decide

/-- Lines of R72's own listing and of 95_test_vectors.md, read. -/
theorem test_ofText :
    Instr.ofText "submit (2,1000) (3,500) (2,2000)      ; zero or more pairs" =
        some (.submit [⟨2, 1000⟩, ⟨3, 500⟩, ⟨2, 2000⟩]) ∧
      Instr.ofText "capacity -> 2560" = some .capacity ∧ Instr.ofText "tick   ; PERIOD_ELAPSED" = some .periodElapsed ∧
      Instr.ofText "submit" = some (.submit []) ∧ Instr.ofText "submit (4294967296,1)" = none := by decide

/-- R72's syntax. -/
theorem test_text : Instr.text (.submit [⟨2, 1000⟩, ⟨3, 500⟩]) = "submit (2,1000) (3,500)" := by decide

/-! ### The Divider Calculator (section 2.1) -/

/-- Rows 0, 99, 101, 333, 12345, 19999, 65536 of section 2.1, reference configuration. -/
theorem test_divider :
    (([0, 99, 101, 333, 12345, 19999, 65536] : List Word).map (divider (Config.reference .never))) =
      [9999, 9999, 9899, 3002, 80, 49, 49] := by decide

/-- Section 2.1: the two ends of the range of TOF, at 0 and at the largest frequency. -/
theorem test_divider_ends :
    (Config.ofParams 40000 400 .never (1, 2)).map (fun c => (divider c 0, divider c 4294967295)) = some (399, 1) ∧
      (Config.ofParams 6553699 65536 .never (1, 2)).map (fun c => (divider c 0, divider c 4294967295)) =
        some (65535, 326) := by decide

/-- Section 2.1: the configurations it refuses, and the one it accepts. -/
theorem test_configurations :
    Config.ofParams 39999 65536 .never (1, 2) = none ∧ Config.ofParams 6553700 65537 .never (1, 2) = none ∧
      Config.ofParams 1000000 9999 .never (1, 2) = none ∧
      (Config.ofParams 1000000 10000 .never (1, 2)).isSome = true := by decide

/-! ### Small states -/

/-- Ready, nothing staged, INIT done, reference configuration. -/
def idle : State :=
  { State.reset with cfg := Config.reference .never, initialised := true, gpioRouted := true, timPeriod := 65536 }

/-- Row O9: two slots of 1999 staged. -/
def staged2 : State := { idle with pending := true, buf := [(0, 1999), (1, 1999)], len := 2 }

/-- Rows O17 and O18: one slot of 2271 staged. -/
def staged1 (zls : ZeroLengthStream) : State :=
  { idle with cfg := Config.reference zls, pending := true, buf := [(0, 2271)], len := 1 }

/-- Row O10: an empty buffer staged. -/
def staged0 : State := { idle with pending := true }

/-- Row O9 after START. -/
def playing : State :=
  { idle with
    buf := [(0, 1999), (1, 1999)], len := 2, state := .busy, timReload := 1999, timRunning := true, timOut := .pwm
    xfEn := true, xfSrc := 1, xfRem := 1 }

/-- `playing` after its first period: transfer-exhausted pending. -/
def exhausted : State := { playing with xfSrc := 2, xfRem := 0, tePending := true, emitted := [1999] }

/-- `exhausted` after ISR_TE. -/
def armed : State := { exhausted with tePending := false, timPeIrqEn := true }

/-- `armed` after its last period: final-period-elapsed pending. -/
def elapsed : State := { armed with fpePending := true, emitted := [1999, 1999] }

/-- The last slot of a full buffer still to be streamed (P7's last tick but for the buffer's contents). -/
def lastSlot : State := { playing with xfSrc := 2559, xfRem := 1, len := 2560 }

/-! ### One step of each instruction -/

/-- P6 row 1: INIT from reset. -/
theorem test_init_from_reset :
    (match exec .init { State.reset with cfg := Config.reference .never } with
      | .next t => (t.initialised, t.gpioRouted, t.timPeriod, t.state, t.responses)
      | _ => (false, false, 0, .busy, [])) = (true, true, 65536, .ready, [0x00000000]) := by decide

/-- P6: a second INIT. -/
theorem test_init_twice : exec .init idle = .refused .repeatedInit := rfl

/-- Row B5 and row O1: the slots written and the flags. -/
theorem test_submit_ok :
    (match exec (.submit [⟨1, 50⟩, ⟨1, 50000⟩]) staged2 with
      | .next t => (t.buf, t.len, t.pending, t.responses)
      | _ => ([], 0, false, [])) = ([(0, 9999), (1, 49)], 2, true, [0x00000000]) := by decide

/-- Rows O3 and B13: over capacity, the exact sum. -/
theorem test_submit_overflow :
    exec (.submit [⟨2561, 1000⟩]) staged2 = .next { staged2 with responses := [0x00000002] } ∧
      exec (.submit [⟨4294967295, 1000⟩, ⟨2, 1000⟩]) staged2 = .next { staged2 with responses := [0x00000002] } :=
  ⟨rfl, rfl⟩

/-- Row O9. -/
theorem test_start_ok : exec .start staged2 = .next { playing with responses := [0x00000000] } := rfl

/-- Rows O17 and O18: a one-slot buffer under both parameters. -/
theorem test_start_one_slot :
    (match exec .start (staged1 .never) with | .next t => (t.xfSrc, t.xfRem, t.tePending) | _ => (9, 9, true)) =
        (1, 0, false) ∧
      (match exec .start (staged1 .fires) with | .next t => (t.xfSrc, t.xfRem, t.tePending) | _ => (9, 9, false)) =
        (1, 0, true) := by decide

/-- Row O11. -/
theorem test_stop_busy :
    exec .stop playing =
      .next { playing with state := .ready, timRunning := false, timOut := .forcedLow, responses := [0x00000000] } := rfl

/-- Rows O14 and O15. -/
theorem test_status :
    exec .status idle = .next { idle with responses := [0x00000003] } ∧
      exec .status playing = .next { playing with responses := [0x00000001] } := ⟨rfl, rfl⟩

/-- Row O16 and P6 row 0: CAPACITY, and an operation before INIT. -/
theorem test_capacity :
    exec .capacity playing = .next { playing with responses := [0x0A000000] } ∧
      exec .capacity State.reset = .refused .uninitialised := ⟨rfl, rfl⟩

/-- Row T3: the last slot is streamed. -/
theorem test_period_last : exec .periodElapsed playing = .next { exhausted with } := rfl

/-- Rows T4 and T5: the last period with the interrupt enabled, and a late ISR_TE. -/
theorem test_period_repeat :
    exec .periodElapsed armed = .next elapsed ∧
      exec .periodElapsed exhausted = .next { exhausted with emitted := [1999, 1999] } := ⟨rfl, rfl⟩

/-- Rows H1 and H2. -/
theorem test_isrTe : exec .isrTe exhausted = .next armed ∧ exec .isrTe armed = .refused (.notEnabled .isrTe) :=
  ⟨rfl, rfl⟩

/-- Rows H3 and H4. -/
theorem test_isrFpe :
    exec .isrFpe elapsed =
        .next { elapsed with fpePending := false, state := .ready, timRunning := false, timOut := .forcedLow } ∧
      exec .isrFpe armed = .refused (.notEnabled .isrFpe) := ⟨rfl, rfl⟩

/-! ### One step of the machine -/

/-- A frame is fetched, decoded and run, and its entry used up. -/
theorem test_step_host :
    step { staged2 with sched := [.host .caller [0x20000000]] } = .next { playing with responses := [0x00000000] } := rfl

/-- Row H5: a HOST entry waits until the handler has run. -/
theorem test_step_handler_first :
    step { exhausted with sched := [.host .caller [0x40000000]] } =
      .next { armed with sched := [.host .caller [0x40000000]] } := rfl

/-- R70: an internal label on the command port is reserved. -/
theorem test_step_label_on_port :
    step { playing with sched := [.host .caller [0x80000000]] } = .refused .reservedEncoding := rfl

/-- `withFetchWord` places an instruction that the very next step runs. -/
theorem test_withFetchWord :
    step (State.reset.withFetchWord 32 0x00000000) = exec .init State.reset ∧
      step (playing.withFetchWord 32 0x80000000) = .next exhausted := ⟨rfl, rfl⟩

/-! ### Witnesses: states of the invariant -/

theorem slots2 : ∀ i, i ≤ 1 → LegalDivider (Config.reference .never) (Memory.read [(0, 1999), (1, 1999)] i) := by
  intro i hi
  interval_cases i <;> exact ⟨by decide, by decide⟩

theorem legal1999 : LegalDivider (Config.reference .never) 1999 := ⟨by decide, by decide⟩

theorem wit_inv_reset : Inv { State.reset with cfg := Config.reference .never } := by
  constructor <;> simp [State.reset, Memory.wf, Memory.wfFrom, AtReset]

theorem wit_inv_idle : Inv idle := by
  constructor <;> simp [idle, State.reset, Memory.wf, Memory.wfFrom]
  decide

theorem wit_inv_staged0 : Inv staged0 := by
  constructor <;> simp [staged0, idle, State.reset, Memory.wf, Memory.wfFrom]
  decide

theorem wit_inv_staged2 : Inv staged2 := by
  constructor <;> simp [staged2, idle, State.reset]
  case memory => decide
  case length => decide
  case slots => exact slots2
  case booted => decide

theorem wit_inv_playing : Inv playing := by
  constructor <;> simp [playing, idle, State.reset]
  case memory => decide
  case length => decide
  case source => decide
  case remaining => decide
  case slots => exact slots2
  case reload => exact legal1999
  case booted => decide

theorem wit_inv_exhausted : Inv exhausted := by
  constructor <;> simp [exhausted, playing, idle, State.reset]
  case memory => decide
  case length => decide
  case source => decide
  case slots => exact slots2
  case reload => exact legal1999
  case observed => exact legal1999
  case booted => decide

theorem wit_inv_armed : Inv armed := by
  constructor <;> simp [armed, exhausted, playing, idle, State.reset]
  case memory => decide
  case length => decide
  case source => decide
  case slots => exact slots2
  case reload => exact legal1999
  case observed => exact legal1999
  case booted => decide

theorem wit_inv_elapsed : Inv elapsed := by
  constructor <;> simp [elapsed, armed, exhausted, playing, idle, State.reset]
  case memory => decide
  case length => decide
  case source => decide
  case slots => exact slots2
  case reload => exact legal1999
  case observed => exact legal1999
  case booted => decide

/-! ### Witnesses: the hypotheses of the statements, each clause once -/

theorem wit_StepRunsTheHostFrame :
    ∃ (s : State) (frame left : List Word) (rest : List Turn) (i : Instr), s.sched = .host .caller frame :: rest ∧
      s.tePending = false ∧ s.fpePending = false ∧
      decode frame = .ok (i, left) ∧ i.isCommand = true ∧ left ≠ [] :=
  ⟨{ idle with sched := [.host .caller [0x40000000, 0x50000000]] }, _, [0x50000000], [], .status, rfl, rfl, rfl, rfl, rfl,
    by decide⟩

theorem wit_StepRunsTheHostFrame_whole :
    ∃ (s : State) (frame : List Word) (rest : List Turn) (i : Instr), s.sched = .host .caller frame :: rest ∧
      s.tePending = false ∧ s.fpePending = false ∧
      decode frame = .ok (i, []) ∧ i.isCommand = true :=
  ⟨{ idle with sched := [.host .caller [0x10000000], .internal 0x80000000] }, _, _, .submit [], rfl, rfl, rfl, rfl, rfl⟩

theorem wit_StepRunsTheInternalLabel :
    ∃ (s : State) (label : Word) (left : List Word) (rest : List Turn) (i : Instr), s.sched = .internal label :: rest ∧
      decode [label] = .ok (i, left) ∧ i.isCommand = false :=
  ⟨{ armed with sched := [tickTurn, isrFpeTurn] }, _, [], _, .periodElapsed, rfl, rfl, rfl⟩

theorem wit_PendingHandlerRunsBeforeHost :
    (∃ (s : State) (ctx : Context) (frame : List Word) (rest : List Turn), s.sched = .host ctx frame :: rest ∧
      s.tePending = true) ∧
      (∃ (s : State) (ctx : Context) (frame : List Word) (rest : List Turn), s.sched = .host ctx frame :: rest ∧
        s.tePending = false ∧ s.fpePending = true) ∧
      (∃ (s : State) (i : Instr), i.isCommand = true ∧ s.fpePending = true) :=
  ⟨⟨{ exhausted with sched := [hostTurn .stop] }, _, _, _, rfl, rfl⟩,
    ⟨{ elapsed with sched := [hostTurn .stop] }, _, _, _, rfl, rfl, rfl⟩, ⟨elapsed, .stop, rfl, rfl⟩⟩

theorem wit_UnscheduledStepIsAnEnabledAgents :
    (idle.sched = [] ∧ idle.timRunning = false ∧ idle.tePending = false ∧ idle.fpePending = false) ∧
      (exhausted.sched = [] ∧ exhausted.timRunning = true ∧ exhausted.tePending = true) := by decide

theorem wit_DecodeGivesBackTheEncoded : (Instr.submit (List.replicate 65535 ⟨4294967295, 0⟩)).wellFormed = true := by
  simp only [Instr.wellFormed, List.length_replicate]
  decide

theorem wit_EncodeGivesBackTheDecoded : decode [0x10000001, 1, 1000, 7] = .ok (.submit [⟨1, 1000⟩], [7]) := rfl

/-- R71's five kinds, and a word that is none of them. -/
theorem wit_ReservedFramesAreRefused :
    (∀ w ∈ ([0x70000000, 0x80000000, 0x20010000, 0x40000001, 0x10000001] : List Word),
      step { idle with sched := [.host .caller [w]] } = .refused .reservedEncoding) ∧
      step { idle with sched := [.host .caller [0x20000000]] } ≠ .refused .reservedEncoding := by
  refine ⟨fun w hw => ?_, fun h => by cases h⟩
  simp only [List.mem_cons, List.not_mem_nil, or_false] at hw
  obtain rfl | rfl | rfl | rfl | rfl := hw <;> rfl

theorem wit_FrameFromAHandlerIsRefused :
    ∃ (s : State) (i : Instr) (rest : List Turn), i.wellFormed = true ∧ i.isCommand = true ∧
      s.sched = .host .interrupt (encode i) :: rest ∧
      s.tePending = false ∧ s.fpePending = false :=
  ⟨{ playing with sched := [.host .interrupt (encode .stop)] }, .stop, [], rfl, rfl, rfl, rfl, rfl⟩

/-- R81's corner cases. -/
theorem wit_ClampIntoTheRange :
    ([0, 99, 100, 101, 19999, 20000, 20001, 4294967295].map clamp) =
      [100, 100, 100, 101, 19999, 20000, 20000, 20000] := by decide

theorem wit_DividerRange :
    (Config.reference .never).tof = 1000000 ∧ 20000 ≤ (20000 : Word).toNat ∧ (100 : Word).toNat ≤ 100 := by decide

theorem wit_DividerNeverIncreases :
    (100 : Word).toNat ≤ (101 : Word).toNat ∧
      (divider (Config.reference .never) 101).toNat < (divider (Config.reference .never) 100).toNat := by decide

theorem wit_InitResult :
    (idle.tePending = false ∧ idle.fpePending = false ∧ idle.initialised = true) ∧
      (State.reset.tePending = false ∧ State.reset.fpePending = false ∧ State.reset.initialised = false) :=
  ⟨⟨rfl, rfl, rfl⟩, ⟨rfl, rfl, rfl⟩⟩

theorem wit_OperationsBeforeInitAreRefused :
    Instr.isCommand .start = true ∧ Instr.start ≠ .init ∧ State.reset.initialised = false ∧
      State.reset.tePending = false ∧ State.reset.fpePending = false := ⟨rfl, by decide, rfl, rfl, rfl⟩

/-- Busy; one above the capacity; the capacity itself; nothing. -/
theorem wit_SubmitResult :
    (playing.tePending = false ∧ playing.fpePending = false ∧ playing.initialised = true ∧ playing.state = .busy) ∧
      (staged2.tePending = false ∧ staged2.fpePending = false ∧ staged2.initialised = true ∧ staged2.state = .ready ∧
        Memory.wf staged2.buf = true) ∧
      2560 < (([⟨2560, 1000⟩, ⟨1, 1000⟩] : List Segment).map fun g => g.count.toNat).sum ∧
      (([⟨1280, 100⟩, ⟨1280, 20000⟩] : List Segment).map fun g => g.count.toNat).sum ≤ 2560 ∧
      (([⟨0, 1000⟩] : List Segment).map fun g => g.count.toNat).sum ≤ 2560 := by decide

theorem wit_StartResult :
    (playing.state = .busy ∧ playing.initialised = true) ∧ (idle.state = .ready ∧ idle.pending = false) ∧
      (staged0.state = .ready ∧ staged0.pending = true ∧ staged0.len = 0) ∧
      ((staged1 .fires).state = .ready ∧ (staged1 .fires).pending = true ∧ 1 ≤ (staged1 .fires).len) ∧
      (staged2.tePending = false ∧ staged2.fpePending = false ∧ staged2.initialised = true ∧ staged2.pending = true ∧
        1 ≤ staged2.len) := by decide

/-- For StopResult, StatusResult and CapacityResult, in both states. -/
theorem wit_HostOperations :
    (idle.tePending = false ∧ idle.fpePending = false ∧ idle.initialised = true ∧ idle.state = .ready) ∧
      (playing.tePending = false ∧ playing.fpePending = false ∧ playing.initialised = true ∧ playing.state = .busy) := by
  decide

theorem wit_StopWhileReadyChangesNothing : Inv staged2 ∧ staged2.state = .ready ∧ staged2.initialised = true :=
  ⟨wit_inv_staged2, rfl, rfl⟩

theorem wit_StagedBufferSurvivesStop :
    (∃ t, exec .stop staged2 = .next t) ∧ staged2.pending = true ∧ 1 ≤ staged2.len := ⟨⟨_, rfl⟩, rfl, by decide⟩

theorem wit_OldBufferPlaysAfterOverflow :
    staged2.tePending = false ∧ staged2.fpePending = false ∧ staged2.initialised = true ∧ staged2.state = .ready ∧
      staged2.pending = true ∧ 1 ≤ staged2.len ∧
      2560 < (([⟨2561, 1000⟩] : List Segment).map fun g => g.count.toNat).sum := by decide

/-- A period that streams, at the last slot of the buffer; a period that repeats. -/
theorem wit_PeriodElapsedResult :
    (lastSlot.timRunning = true ∧ lastSlot.xfEn = true ∧ 0 < lastSlot.xfRem ∧ lastSlot.xfSrc < 2560) ∧
      (armed.timRunning = true ∧ armed.xfRem = 0) := by decide

/-- For IsrTeResult and IsrFpeResult. -/
theorem wit_handlers : exhausted.tePending = true ∧ elapsed.fpePending = true ∧ elapsed.tePending = false := by decide

/-- Every instruction answers a next state somewhere: the hypothesis of FlagWriters, DeviceFieldWriters,
EmittedGrowsByPeriodsOnly, ResponsesOfEachOperation, RejectionsExactlyWhen and HandlerFrame. -/
theorem wit_exec_answers :
    (∃ t, exec .init State.reset = .next t) ∧ (∃ t, exec (.submit [⟨1, 1000⟩]) idle = .next t) ∧
      (∃ t, exec .start staged2 = .next t) ∧ (∃ t, exec .start idle = .next t) ∧ (∃ t, exec .stop playing = .next t) ∧
      (∃ t, exec .status idle = .next t) ∧ (∃ t, exec .capacity idle = .next t) ∧
      (∃ t, exec .periodElapsed playing = .next t) ∧ (∃ t, exec .isrTe exhausted = .next t) ∧
      (∃ t, exec .isrFpe elapsed = .next t) :=
  ⟨⟨_, rfl⟩, ⟨_, rfl⟩, ⟨_, rfl⟩, ⟨_, rfl⟩, ⟨_, rfl⟩, ⟨_, rfl⟩, ⟨_, rfl⟩, ⟨_, rfl⟩, ⟨_, rfl⟩, ⟨_, rfl⟩⟩

theorem wit_RejectionsWriteNothing :
    (∃ t, exec .start playing = .next t ∧ t.responses = playing.responses ++ [0x00000001]) ∧
      (∃ t, exec (.submit [⟨2561, 1000⟩]) staged2 = .next t ∧ t.responses = staged2.responses ++ [0x00000002]) :=
  ⟨⟨_, rfl, rfl⟩, ⟨_, rfl, rfl⟩⟩

/-- A step that writes the buffer and its length, and a step that INIT is. -/
theorem wit_BufferWriters :
    (∃ t, step { idle with sched := [.host .caller [0x10000001, 1, 1000]] } = .next t ∧
      Memory.read t.buf 0 ≠ Memory.read idle.buf 0 ∧ t.len ≠ idle.len) ∧ (∃ t, exec .init State.reset = .next t) :=
  ⟨⟨_, rfl, by decide, by decide⟩, ⟨_, rfl⟩⟩

theorem wit_NoStepChangesTheConfiguration : ∃ t, step { playing with sched := [tickTurn] } = .next t := ⟨_, rfl⟩

theorem wit_BusyBeginsAndEnds :
    (Inv staged2 ∧ ∃ t, exec .start staged2 = .next t ∧ staged2.state = .ready ∧ t.state = .busy) ∧
      (Inv elapsed ∧ ∃ t, exec .isrFpe elapsed = .next t ∧ elapsed.state = .busy ∧ t.state = .ready) :=
  ⟨⟨wit_inv_staged2, _, rfl, rfl, rfl⟩, ⟨wit_inv_elapsed, _, rfl, rfl, rfl⟩⟩

/-- The ends of R3 and R4, and one beyond each. -/
theorem wit_OnlyLegalConfigurationsAreInstances :
    ([(40000, 400), (6553699, 65536), (39999, 65536), (6553700, 65537), (40000, 399)].map fun p : Nat × Nat =>
        decide (40000 ≤ p.1 ∧ p.1 ≤ 6553699 ∧ p.1 / 100 ≤ p.2)) = [true, true, false, false, false] := by decide

theorem wit_EveryStepKeepsTheInvariant :
    ∃ s t : State, Inv s ∧ step s = .next t ∧ s.timRunning = true ∧ t.tePending = true :=
  ⟨{ playing with sched := [tickTurn] }, _, wit_inv_playing.sameBut rfl, rfl, rfl, rfl⟩

/-- The fault, and that a run stops at it. -/
theorem wit_StartEmptyBufferIsTheOneFault :
    exec .start staged0 = .fault .startEmptyBuffer ∧
      steps 1 { staged0 with sched := [hostTurn .status, hostTurn .start] } =
        .next { staged0 with sched := [hostTurn .start], responses := [0x00000003] } ∧
      step { staged0 with sched := [hostTurn .start], responses := [0x00000003] } = .fault .startEmptyBuffer :=
  ⟨rfl, rfl, rfl⟩

theorem wit_InvariantRulesOutOtherFaults : Inv staged0 ∧ exec .start staged0 = .fault .startEmptyBuffer :=
  ⟨wit_inv_staged0, rfl⟩

theorem wit_QuiescentIsReadyWithNoHandlerPending : Inv idle ∧ Quiescent idle ∧ Inv playing ∧ ¬ Quiescent playing :=
  ⟨wit_inv_idle, ⟨rfl, rfl, rfl⟩, wit_inv_playing, fun h => by cases h.1⟩

/-- A run of two slots with one late period before each handler (the shape of P4). -/
theorem wit_RunEmitsTheBufferThenLateCopies :
    ∃ (s : State) (rest : List Turn), Inv s ∧ s.initialised = true ∧ s.state = .ready ∧ s.pending = true ∧ 2 ≤ s.len ∧
      s.sched = runSchedule s.len 1 1 ++ rest :=
  ⟨{ staged2 with sched := runSchedule 2 1 1 ++ [hostTurn .status] }, _, wit_inv_staged2.sameBut rfl, rfl, rfl, rfl,
    by decide, rfl⟩

theorem wit_RunLeftAloneEnds :
    ∃ s : State, Inv s ∧ s.initialised = true ∧ s.state = .ready ∧ s.pending = true ∧ 2 ≤ s.len ∧
      s.sched = [hostTurn .start] :=
  ⟨{ staged2 with sched := [hostTurn .start] }, wit_inv_staged2.sameBut rfl, rfl, rfl, rfl, by decide, rfl⟩

/-- A streaming period, the handler of its event, the last period and the handler that ends the run. -/
theorem wit_PromptRunEmitsExactlyTheBuffer :
    (Inv playing ∧ playing.state = .busy ∧ 2 ≤ playing.len ∧ Played [] playing ∧ Prompt playing .periodElapsed ∧
        ∃ t, exec .periodElapsed playing = .next t ∧ t.state = .busy) ∧
      (Inv exhausted ∧ Played [] exhausted ∧ Prompt exhausted .isrTe ∧ ∃ t, exec .isrTe exhausted = .next t) ∧
      (Inv armed ∧ Played [] armed ∧ Prompt armed .periodElapsed ∧ ∃ t, exec .periodElapsed armed = .next t) ∧
      (Inv elapsed ∧ Played [] elapsed ∧ Prompt elapsed .isrFpe ∧ ∃ t, exec .isrFpe elapsed = .next t ∧ t.state = .ready) :=
  ⟨⟨wit_inv_playing, rfl, by decide, ⟨rfl, rfl, by decide⟩, fun _ => ⟨rfl, rfl⟩, _, rfl, rfl⟩,
    ⟨wit_inv_exhausted, ⟨rfl, rfl, by decide⟩, (fun h => by cases h), _, rfl⟩,
    ⟨wit_inv_armed, ⟨rfl, rfl, by decide⟩, fun _ => ⟨rfl, rfl⟩, _, rfl⟩,
    ⟨wit_inv_elapsed, ⟨rfl, rfl, by decide⟩, (fun h => by cases h), _, rfl, rfl⟩⟩

theorem wit_OneSlotRun :
    (∀ zls, (staged1 zls).initialised = true ∧ (staged1 zls).state = .ready ∧ (staged1 zls).pending = true ∧
        (staged1 zls).len = 1 ∧ (staged1 zls).tePending = false ∧ (staged1 zls).fpePending = false ∧
        (staged1 zls).cfg.zeroLengthStream = zls) :=
  fun _ => ⟨rfl, rfl, rfl, rfl, rfl, rfl, rfl⟩

theorem wit_InternalStepsUseUpTheWorkLeft :
    (Inv playing ∧ 0 < playing.xfRem ∧ ∃ t, exec .periodElapsed playing = .next t) ∧
      (Inv exhausted ∧ ∃ t, exec .isrTe exhausted = .next t) ∧
      (Inv armed ∧ armed.timPeIrqEn = true ∧ armed.fpePending = false ∧ ∃ t, exec .periodElapsed armed = .next t) ∧
      (Inv elapsed ∧ ∃ t, exec .isrFpe elapsed = .next t) :=
  ⟨⟨wit_inv_playing, by decide, _, rfl⟩, ⟨wit_inv_exhausted, _, rfl⟩, ⟨wit_inv_armed, rfl, rfl, _, rfl⟩,
    ⟨wit_inv_elapsed, _, rfl⟩⟩

/-- `elapsed` after ISR_FPE: the run is over. -/
def finished : State := { elapsed with fpePending := false, state := .ready, timRunning := false, timOut := .forcedLow }

/-- The run of `staged2` after its START, with the response START sent: a period, ISR_TE, a period, ISR_FPE, then nothing. -/
def wholeRun : Nat → State
  | 0 => { playing with responses := [0x00000000] }
  | 1 => { exhausted with responses := [0x00000000] }
  | 2 => { armed with responses := [0x00000000] }
  | 3 => { elapsed with responses := [0x00000000] }
  | _ + 4 => { finished with responses := [0x00000000] }

/-- Whose steps `wholeRun` is. -/
def wholeWho : Nat → Option Instr
  | 0 => some .periodElapsed
  | 1 => some .isrTe
  | 2 => some .periodElapsed
  | 3 => some .isrFpe
  | _ + 4 => none

/-- The run of a one-slot buffer with `never` after its START: a period, for ever. -/
def endlessRun (n : Nat) : State :=
  { staged1 .never with
    state := .busy, pending := false, timReload := 2271, timRunning := true, timOut := .pwm, xfEn := true, xfSrc := 1
    responses := [0x00000000], emitted := List.replicate n 2271 }

theorem wit_FairRunReachesReady :
    Inv staged2 ∧ staged2.state = .ready ∧ staged2.pending = true ∧ exec .start staged2 = .next (wholeRun 0) ∧
      IsRun wholeRun wholeWho ∧ Fair wholeRun wholeWho ∧ (∀ n i, wholeWho n = some i → i.isCommand = false) ∧
      2 ≤ staged2.len := by
  refine ⟨wit_inv_staged2, rfl, rfl, rfl, ⟨fun n i h => ?_, fun n h => ?_⟩, fun a n ha he => ?_, fun n i h => ?_, by decide⟩
  · match n, h with
    | 0, h => obtain rfl := Option.some.inj h; exact ⟨wholeRun 0, (rfl : SameBut (wholeRun 0) (wholeRun 0)), rfl⟩
    | 1, h => obtain rfl := Option.some.inj h; exact ⟨wholeRun 1, (rfl : SameBut (wholeRun 1) (wholeRun 1)), rfl⟩
    | 2, h => obtain rfl := Option.some.inj h; exact ⟨wholeRun 2, (rfl : SameBut (wholeRun 2) (wholeRun 2)), rfl⟩
    | 3, h => obtain rfl := Option.some.inj h; exact ⟨wholeRun 3, (rfl : SameBut (wholeRun 3) (wholeRun 3)), rfl⟩
  · match n, h with
    | _ + 4, _ => rfl
  · have h := he (n + 4) (by omega)
    cases a with
    | host => exact absurd rfl ha
    | timer => cases h
    | isrTe => cases h
    | isrFpe => cases h
  · match n, h with
    | 0, h => obtain rfl := Option.some.inj h; rfl
    | 1, h => obtain rfl := Option.some.inj h; rfl
    | 2, h => obtain rfl := Option.some.inj h; rfl
    | 3, h => obtain rfl := Option.some.inj h; rfl

theorem wit_FairRunReachesReady_never :
    Inv (staged1 .never) ∧ exec .start (staged1 .never) = .next (endlessRun 0) ∧
      IsRun endlessRun (fun _ => some .periodElapsed) ∧ Fair endlessRun (fun _ => some .periodElapsed) ∧
      (staged1 .never).len = 1 ∧ (staged1 .never).cfg.zeroLengthStream = .never := by
  refine ⟨?_, rfl, ⟨fun n i h => ?_, fun n h => by cases h⟩, fun a n ha he => ?_, rfl, rfl⟩
  · constructor <;> simp [staged1, idle, State.reset]
    case memory => decide
    case length => decide
    case slots => exact ⟨by decide, by decide⟩
    case booted => decide
  · obtain rfl := Option.some.inj h
    refine ⟨endlessRun n, rfl, ?_⟩
    have e : exec .periodElapsed (endlessRun n) = .next (endlessRun n).completePeriod := exec_period_repeat rfl rfl
    rw [e]
    simp [State.completePeriod, endlessRun, staged1, idle, State.reset, List.replicate_succ', fpeRaisedByElapse]
  · cases a with
    | host => exact absurd rfl ha
    | timer => exact ⟨n, .periodElapsed, le_refl n, rfl, rfl⟩
    | isrTe => cases he n (le_refl n)
    | isrFpe => cases he n (le_refl n)

/-- A run of the machine whose schedule names the last handler, and which then waits. -/
theorem wit_EveryRunOfTheMachineIsFair :
    ∃ σ : Nat → State, (∀ n, step (σ n) = .next (σ (n + 1))) ∧ (σ 0).fpePending = true ∧ (σ 1).fpePending = false :=
  ⟨fun n => match n with | 0 => { elapsed with sched := [isrFpeTurn] } | _ + 1 => finished,
    fun n => match n with | 0 => rfl | _ + 1 => rfl, rfl, rfl⟩

end Sys2Proof.Machine.Tests
end

section
/-! Which parameters make an instance (R3, R4, R140, U14). -/

namespace Sys2Proof

/-- R3 and R4 decide which parameters have a configuration. -/
theorem Config.ofParams_isSome_iff (tof tpt : Nat) (zls : ZeroLengthStream) (duty : Nat × Nat) :
    (Config.ofParams tof tpt zls duty).isSome ↔ 40000 ≤ tof ∧ tof ≤ 6553699 ∧ tof / 100 ≤ tpt := by
  unfold Config.ofParams
  split
  case isTrue h => exact iff_of_true rfl h
  case isFalse h => exact iff_of_false Bool.false_ne_true h

namespace Machine

theorem instantiate_of_some {tof tpt : Nat} {zls : ZeroLengthStream} {duty : Nat × Nat} {c : Config}
    (h : Config.ofParams tof tpt zls duty = some c) :
    instantiate tof tpt zls duty = .ok { State.reset with cfg := c } := by
  simp [instantiate, h]

theorem instantiate_of_none {tof tpt : Nat} {zls : ZeroLengthStream} {duty : Nat × Nat}
    (h : Config.ofParams tof tpt zls duty = none) :
    instantiate tof tpt zls duty = .error .badConfiguration := by
  simp [instantiate, h]

/-- Settles O42: parameters have a configuration exactly when R3 and R4 hold (`Config.ofParams_isSome_iff`), and the
configuration made of them has them (`Config.ofParams_some`). -/
theorem onlyLegalConfigurationsAreInstances : Obligations.OnlyLegalConfigurationsAreInstances := by
  intro tof tpt zls duty
  have made := Config.ofParams_isSome_iff tof tpt zls duty
  constructor
  · intro legal
    obtain ⟨c, hc⟩ := Option.isSome_iff_exists.mp (made.mpr legal)
    obtain ⟨htof, htpt, hzls, -⟩ := Config.ofParams_some hc
    exact ⟨_, instantiate_of_some hc, htof, htpt, hzls, rfl⟩
  · intro illegal
    exact instantiate_of_none (Option.not_isSome_iff_eq_none.mp (mt made.mp illegal))

end Machine
end Sys2Proof
end

section
/-! The invariant (R37, log 15): each group of writes of `Sys2Proof/Machine/Ops.lean` keeps it under the guards of the step that
makes the writes, so every step of the machine keeps it. -/

namespace Sys2Proof.Machine

/-! ### The divider values BUILD writes -/

/-- Every divider value is legal (R16, R83, R84): `TOF / clamp f` is at least 2 by R3, and at most `TOF / 100 ≤ TPT` by R4. -/
theorem legalDivider_divider (c : Config) (f : Word) : LegalDivider c (divider c f) := by
  obtain ⟨hlo, hhi⟩ := clamp_bounds f.toNat
  obtain ⟨htlo, hthi⟩ := c.tof_bounds
  have htpt := c.tpt_bound
  have hge : 2 ≤ c.tof / clamp f.toNat := (Nat.le_div_iff_mul_le (by omega)).mpr (by omega)
  have hle : c.tof / clamp f.toNat ≤ c.tof / 100 := Nat.div_le_div_left hlo (by omega)
  rw [LegalDivider, divider, BitVec.toNat_ofNat, Nat.mod_eq_of_lt (by omega)]
  omega

/-- Every slot a segment list expands to is legal. -/
theorem legalDivider_of_mem_expand {c : Config} {segs : List Segment} {v : Slot} (h : v ∈ expand c segs) :
    LegalDivider c v := by
  induction segs with
  | nil => cases h
  | cons g gs ih =>
    rcases List.mem_append.mp h with hg | hgs
    · rw [List.eq_of_mem_replicate hg]; exact legalDivider_divider c g.frequency
    · exact ih hgs

/-- After BUILD every valid slot is legal (R37 item 6). -/
theorem legalDivider_read_build {c : Config} {segs : List Segment} {m : Memory} (hm : Memory.wf m = true)
    (hl : totalCount segs ≤ maxPulses) {i : Nat} (hi : i < totalCount segs) :
    LegalDivider c (Memory.read (Memory.writeFrom m 0 (expand c segs)) i) := by
  have hlen := length_expand c segs
  rw [Memory.read_writeFrom hm (by omega), if_pos (Nat.zero_le i), Nat.sub_zero,
    List.getD_eq_getElem _ _ (by omega)]
  exact legalDivider_of_mem_expand (List.getElem_mem _)

/-! ### The invariant at reset, and what it says of INIT -/

/-- Settles O43: at reset the engine is Ready, nothing is pending, staged or observed, so each clause holds by itself or of
nothing. -/
theorem invariantHoldsAtReset : Obligations.InvariantHoldsAtReset := fun _ =>
  { memory := rfl
    length := Nat.zero_le _
    source := Nat.zero_le _
    remaining := Nat.zero_le _
    busy_iff_running := ⟨nofun, nofun⟩
    running_iff_pwm := ⟨nofun, nofun⟩
    busy_unstaged := nofun
    position := nofun
    slots := fun i hi => absurd hi (Nat.not_lt_zero i)
    reload := nofun
    observed := nofun
    te := nofun
    fpe := nofun
    armed := nofun
    booted := nofun
    unbooted := fun _ => rfl }

section

variable {s : State}

/-- A busy engine has been initialised: before INIT it is as at reset, Ready. -/
theorem Inv.initialised_of_busy (hI : Inv s) (hb : s.state = .busy) : s.initialised = true := by
  by_contra hi
  have hr : s.state = .ready := congrArg State.state (hI.unbooted (by simpa using hi))
  simp [hb] at hr

/-! ### Each group of writes keeps the invariant -/

/-- An answer writes no element. -/
theorem Inv.respond (hI : Inv s) (w : Word) : Inv (s.respond w) :=
  { hI with
    unbooted := fun hi => by
      have := hI.unbooted hi
      unfold AtReset at this ⊢
      rw [this]
      rfl }

theorem Inv.initialise (hI : Inv s) : Inv s.initialise :=
  { hI with
    length := Nat.zero_le _
    source := Nat.zero_le _
    remaining := Nat.zero_le _
    busy_iff_running := ⟨nofun, nofun⟩
    running_iff_pwm := ⟨nofun, nofun⟩
    busy_unstaged := nofun
    position := nofun
    slots := fun i hi => absurd hi (Nat.not_lt_zero i)
    reload := nofun
    te := nofun
    fpe := nofun
    armed := nofun
    booted := fun _ => ⟨rfl, rfl⟩
    unbooted := nofun }

/-- Staging what BUILD wrote, while Ready. -/
theorem Inv.stage_build (hI : Inv s) (hi : s.initialised = true) (hr : s.state = .ready) {segs : List Segment}
    (hl : totalCount segs ≤ maxPulses) :
    Inv (s.stage (Memory.writeFrom s.buf 0 (expand s.cfg segs)) (totalCount segs)) :=
  { hI with
    memory := Memory.wf_writeFrom hI.memory (by rw [length_expand]; omega)
    length := hl
    busy_unstaged := fun hb => by simp [hr] at hb
    position := fun hb => by simp [hr] at hb
    slots := fun _ h => legalDivider_read_build hI.memory hl h
    unbooted := fun h => by simp [hi] at h }

/-- A run begins with the buffer's first slot playing and the others to be streamed. -/
theorem Inv.launch (hI : Inv s) (ht : s.tePending = false) (hf : s.fpePending = false) (hi : s.initialised = true)
    (hl : s.len ≠ 0) : Inv s.launch :=
  { hI with
    source := by simp [maxPulses]
    remaining := Nat.sub_le_sub_right hI.length 1
    busy_iff_running := ⟨fun _ => rfl, fun _ => rfl⟩
    running_iff_pwm := ⟨fun _ => rfl, fun _ => rfl⟩
    busy_unstaged := fun _ => rfl
    position := fun _ => ⟨rfl, le_refl 1, Nat.add_sub_cancel' (Nat.one_le_iff_ne_zero.mpr hl)⟩
    reload := fun _ => hI.slots 0 (Nat.pos_of_ne_zero hl)
    te := fun h => by
      have h0 : s.len - 1 = 0 ∧ s.cfg.zeroLengthStream = .fires := by simpa [ht, teRaisedByStart] using h
      exact ⟨rfl, h0.1, rfl, hf⟩
    fpe := fun h => by simp [hf] at h
    armed := nofun
    unbooted := fun h => by simp [hi] at h }

/-- Halting with no event pending. -/
theorem Inv.haltEmission (hI : Inv s) (ht : s.tePending = false) (hf : s.fpePending = false)
    (hi : s.initialised = true) : Inv s.haltEmission :=
  { hI with
    busy_iff_running := ⟨nofun, nofun⟩
    running_iff_pwm := ⟨nofun, nofun⟩
    busy_unstaged := nofun
    position := nofun
    reload := nofun
    te := fun h => by simp [ht] at h
    fpe := fun h => by simp [hf] at h
    armed := nofun
    unbooted := fun h => by simp [hi] at h }

/-- A period of a busy engine is complete: the value observed is the legal one that was playing, and FPE is raised only where the
interrupt is enabled, which it is only after the last slot. -/
theorem Inv.completePeriod (hI : Inv s) (hb : s.state = .busy) : Inv s.completePeriod :=
  { hI with
    observed := fun v hv => by
      rcases List.mem_append.mp hv with h | h
      · exact hI.observed v h
      · rw [List.mem_singleton.mp h]; exact hI.reload hb
    te := fun h => by
      obtain ⟨-, h0, hirq, hf⟩ := hI.te h
      exact ⟨hb, h0, hirq, by simp [hf, hirq, fpeRaisedByElapse]⟩
    fpe := fun h => by
      rcases Bool.or_eq_true_iff.mp h with hf | hirq
      · exact hI.fpe hf
      · exact ⟨hb, hI.armed hb hirq, hirq⟩
    unbooted := fun h => by simp [hI.initialised_of_busy hb] at h }

/-- A busy engine with slots left streams the next one: it is a valid slot, since the playback position adds up to `len`. -/
theorem Inv.stream (hI : Inv s) (hb : s.state = .busy) (h0 : 0 < s.xfRem) :
    Inv (s.stream (Memory.read s.buf s.xfSrc)) := by
  obtain ⟨hx, h1, hsum⟩ := hI.position hb
  have hlen := hI.length
  have hrem := hI.remaining
  exact
    { hI with
      source := by simp only [State.stream_xfSrc]; omega
      remaining := by simp only [State.stream_xfRem]; omega
      position := fun _ => ⟨hx, by simp, by simp only [State.stream_xfSrc, State.stream_xfRem, State.stream_len]; omega⟩
      reload := fun _ => hI.slots s.xfSrc (by omega)
      te := fun h => by
        rcases Bool.or_eq_true_iff.mp h with ht | hlast
        · obtain ⟨-, hz, -⟩ := hI.te ht; omega
        · refine ⟨hb, by simpa [teRaisedByStream] using hlast, ?_, ?_⟩
          · by_contra hirq
            have := hI.armed hb (by simpa using hirq); omega
          · by_contra hf
            obtain ⟨-, hz, -⟩ := hI.fpe (by simpa using hf); omega
      fpe := fun h => by obtain ⟨-, hz, -⟩ := hI.fpe h; omega
      armed := fun _ hirq => by have := hI.armed hb hirq; omega
      unbooted := fun h => by simp [hI.initialised_of_busy hb] at h }

theorem Inv.ackTe (hI : Inv s) (hi : s.initialised = true) : Inv s.ackTe :=
  { hI with
    te := nofun
    unbooted := fun h => by simp [hi] at h }

theorem Inv.ackFpe (hI : Inv s) (hi : s.initialised = true) : Inv s.ackFpe :=
  { hI with
    te := fun h => by obtain ⟨hb, h0, hirq, -⟩ := hI.te h; exact ⟨hb, h0, hirq, rfl⟩
    fpe := nofun
    unbooted := fun h => by simp [hi] at h }

/-- Arming the interrupt once TE is acknowledged and nothing is left to stream. -/
theorem Inv.armPeriodIrq (hI : Inv s) (hi : s.initialised = true) (ht : s.tePending = false) (h0 : s.xfRem = 0) :
    Inv s.armPeriodIrq :=
  { hI with
    te := fun h => by simp [ht] at h
    fpe := fun h => by obtain ⟨hb, -⟩ := hI.fpe h; exact ⟨hb, h0, rfl⟩
    armed := fun _ _ => h0
    unbooted := fun h => by simp [hi] at h }

/-! ### Every instruction and every step keep the invariant -/

/-- Every instruction that answers a next state keeps the invariant. -/
theorem Inv.exec {i : Instr} {t : State} (hI : Inv s) (h : exec i s = .next t) : Inv t := by
  cases i with
  | init =>
    obtain ⟨-, -, rfl⟩ := execInit_cases h
    exact hI.initialise.respond _
  | submit segs =>
    obtain ⟨⟨-, hi⟩, ⟨-, rfl⟩ | ⟨-, -, rfl⟩ | ⟨hr, hl, rfl⟩⟩ := execSubmit_cases h
    · exact hI.respond _
    · exact hI.respond _
    · exact (hI.stage_build hi hr hl).respond _
  | start =>
    obtain ⟨⟨⟨ht, hf⟩, hi⟩, ⟨-, rfl⟩ | ⟨-, -, rfl⟩ | ⟨-, -, hl, rfl⟩⟩ := execStart_cases h
    · exact hI.respond _
    · exact hI.respond _
    · exact (hI.launch ht hf hi hl).respond _
  | stop =>
    obtain ⟨⟨⟨ht, hf⟩, hi⟩, rfl⟩ := execStop_cases h
    exact (hI.haltEmission ht hf hi).respond _
  | status =>
    obtain ⟨-, rfl⟩ := execStatus_cases h
    exact hI.respond _
  | capacity =>
    obtain ⟨-, rfl⟩ := execCapacity_cases h
    exact hI.respond _
  | periodElapsed =>
    obtain ⟨hrun, hcase⟩ := execPeriodElapsed_cases h
    have hb : s.state = .busy := hI.busy_iff_running.mpr hrun
    obtain ⟨-, h0, -, rfl⟩ | ⟨-, rfl⟩ := hcase
    · exact (hI.completePeriod hb).stream hb h0
    · exact hI.completePeriod hb
  | isrTe =>
    obtain ⟨ht, rfl⟩ := execIsrTe_cases h
    obtain ⟨hb, h0, -⟩ := hI.te ht
    have hi := hI.initialised_of_busy hb
    exact (hI.ackTe hi).armPeriodIrq hi rfl h0
  | isrFpe =>
    obtain ⟨⟨hf, ht⟩, rfl⟩ := execIsrFpe_cases h
    have hi := hI.initialised_of_busy (hI.fpe hf).1
    exact (hI.ackFpe hi).haltEmission ht rfl hi

end

/-- Settles O44: a step waits, or runs one instruction in a state that differs in the schedule and the free choices only
(`step_next`); those the invariant does not look at (`Inv.sameBut`), and every instruction keeps it (`Inv.exec`). -/
theorem everyStepKeepsTheInvariant : Obligations.EveryStepKeepsTheInvariant := by
  intro s t hI h
  obtain rfl | ⟨i, s', hsame, -, hexec⟩ := step_next h
  · exact hI
  · exact (hI.sameBut hsame).exec hexec

end Sys2Proof.Machine
end

section
/-! Who writes the elements of the state, and to what (R18, R21 to R34). -/

namespace Sys2Proof.Machine

/-! ### The response words as R69 writes them -/

@[simp] theorem statusResponse_ok : statusResponse .ok = 0x00000000 := rfl
@[simp] theorem statusResponse_busy : statusResponse .busy = 0x00000001 := rfl
@[simp] theorem statusResponse_overflow : statusResponse .overflow = 0x00000002 := rfl

/-- START raises TE exactly for a one-slot buffer on a device that fires on a stream of zero values (R108). -/
theorem teRaisedByStart_pred {n : Nat} (hn : n ≠ 0) (zls : ZeroLengthStream) :
    teRaisedByStart zls (n - 1) = decide (n = 1 ∧ zls = .fires) := by
  have : n - 1 = 0 ↔ n = 1 := by omega
  simp [teRaisedByStart, this]

/-- Before INIT, with no event pending, a HOST operation under the guards of R100 is refused (R18). -/
theorem hostOp_of_not_initialised {s : State} {k : State → Host.Outcome State Fault Refusal}
    (ht : s.tePending = false) (hf : s.fpePending = false) (hi : s.initialised = false) :
    hostOp s k = .refused .uninitialised := by
  unfold hostOp
  rw [asAgent_of_enabled (enabled_host.mpr ⟨ht, hf⟩)]
  simp [hi]

/-- Settles O18: the guard all HOST operations but INIT share refuses them (`hostOp_of_not_initialised`). -/
theorem operationsBeforeInitAreRefused : Obligations.OperationsBeforeInitAreRefused := by
  refine ⟨rfl, fun s t h => ?_, fun s i hc hne hi ht hf => ?_⟩
  · obtain ⟨-, -, rfl⟩ := execInit_cases h
    rfl
  · cases i with
    | init => exact absurd rfl hne
    | submit | start | stop | status | capacity =>
      simp only [exec, execSubmit, execStart, execStop, execStatus, execCapacity,
        hostOp_of_not_initialised ht hf hi]
    | periodElapsed | isrTe | isrFpe => cases hc

/-- Settles O34: of the nine kinds of write (`exec_cases`) only the two of PERIOD_ELAPSED go through
`State.completePeriod`, and no other touches `emitted`. -/
theorem emittedGrowsByPeriodsOnly : Obligations.EmittedGrowsByPeriodsOnly := by
  intro i s t h
  rcases exec_cases h with ⟨rfl, -, rfl⟩ | ⟨w, rfl, hc⟩ | ⟨segs, rfl, -, rfl⟩ | ⟨rfl, -, -, -, rfl⟩ | ⟨rfl, rfl⟩ |
    ⟨rfl, -, -, -, rfl⟩ | ⟨rfl, -, -, rfl⟩ | ⟨rfl, -, rfl⟩ | ⟨rfl, -, -, rfl⟩
  on_goal 2 =>
    have hne : i ≠ .periodElapsed := by rintro rfl; cases hc
    simp [hne]
  all_goals simp

/-- Settles O33: each of the nine kinds of write (`exec_cases`) writes the elements its rule names, to the values given;
the slot streamed is one of those left, so `xf_rem` does fall by one. -/
theorem deviceFieldWriters : Obligations.DeviceFieldWriters := by
  intro i s t h
  rcases exec_cases h with ⟨rfl, -, rfl⟩ | ⟨w, rfl, -⟩ | ⟨segs, rfl, -, rfl⟩ | ⟨rfl, -, -, -, rfl⟩ | ⟨rfl, rfl⟩ |
    ⟨rfl, -, -, h0, rfl⟩ | ⟨rfl, -, -, rfl⟩ | ⟨rfl, -, rfl⟩ | ⟨rfl, -, -, rfl⟩
  on_goal 6 =>
    have hrem : s.xfRem - 1 + 1 = s.xfRem := Nat.sub_add_cancel h0
    simp [hrem]
  all_goals simp

/-- Settles O31: the writes of each instruction field by field. SUBMIT and START tell acceptance from rejection by the
response word, so each of their outcomes is one branch of the statement's condition. -/
theorem flagWriters : Obligations.FlagWriters := by
  intro i s t h
  cases i with
  | init =>
    obtain ⟨-, -, rfl⟩ := execInit_cases h
    simp
  | submit segs =>
    obtain ⟨-, ⟨-, rfl⟩ | ⟨-, -, rfl⟩ | ⟨-, -, rfl⟩⟩ := execSubmit_cases h <;> simp
  | start =>
    obtain ⟨-, ⟨-, rfl⟩ | ⟨-, -, rfl⟩ | ⟨-, -, hl, rfl⟩⟩ := execStart_cases h
    · simp
    · simp
    · simp [teRaisedByStart_pred hl, Bool.or_comm]
  | stop =>
    obtain ⟨-, rfl⟩ := execStop_cases h
    simp
  | status =>
    obtain ⟨-, rfl⟩ := execStatus_cases h
    simp
  | capacity =>
    obtain ⟨-, rfl⟩ := execCapacity_cases h
    simp
  | periodElapsed =>
    obtain ⟨-, ⟨-, -, -, rfl⟩ | ⟨-, rfl⟩⟩ := execPeriodElapsed_cases h <;> simp +contextual
  | isrTe =>
    obtain ⟨-, rfl⟩ := execIsrTe_cases h
    simp
  | isrFpe =>
    obtain ⟨-, rfl⟩ := execIsrFpe_cases h
    simp

end Sys2Proof.Machine
end

section
/-! Who writes the TransferBuffer and its length (R43). -/

namespace Sys2Proof.Machine

section

variable {s s' : State}

theorem SameBut.buf_eq (h : SameBut s s') : s'.buf = s.buf := by rw [h]

theorem SameBut.len_eq (h : SameBut s s') : s'.len = s.len := by rw [h]

theorem SameBut.state_eq (h : SameBut s s') : s'.state = s.state := by rw [h]

end

/-- The buffer is written by a SUBMIT while Ready, its length with it or by INIT. -/
theorem exec_buf_len {i : Instr} {s t : State} (h : exec i s = .next t) :
    (∃ segs, i = .submit segs ∧ s.state = .ready) ∨ (i = .init ∧ t.buf = s.buf ∧ t.len = 0) ∨
      (t.buf = s.buf ∧ t.len = s.len) := by
  rcases exec_cases h with ⟨rfl, -, rfl⟩ | ⟨_, rfl, -⟩ | ⟨segs, rfl, hr, -⟩ | ⟨-, -, -, -, rfl⟩ | ⟨-, rfl⟩ |
    ⟨-, -, -, -, rfl⟩ | ⟨-, -, -, rfl⟩ | ⟨-, -, rfl⟩ | ⟨-, -, -, rfl⟩
  on_goal 1 => exact .inr (.inl ⟨rfl, rfl, rfl⟩)
  on_goal 2 => exact .inl ⟨segs, rfl, hr⟩
  all_goals exact .inr (.inr ⟨rfl, rfl⟩)

/-- A step that writes the buffer or its length ran HOST's next frame, from the caller context: a SUBMIT while Ready,
or INIT, which leaves the buffer. -/
theorem step_buf_len {s t : State} (h : step s = .next t) :
    (t.buf = s.buf ∧ t.len = s.len) ∨
      ∃ frame rest i left, s.sched = .host .caller frame :: rest ∧ decode frame = .ok (i, left) ∧
        ((∃ segs, i = .submit segs ∧ s.state = .ready) ∨ (i = .init ∧ t.buf = s.buf)) := by
  obtain rfl | ⟨i, s', hsame, hfetch, hexec⟩ := step_next h
  · exact .inl ⟨rfl, rfl⟩
  obtain ⟨segs, rfl, hr⟩ | ⟨rfl, hb, -⟩ | ⟨hb, hl⟩ := exec_buf_len hexec
  · obtain ⟨-, -, frame, rest, left, hs, hd⟩ := fetch_run_command hfetch rfl
    exact .inr ⟨frame, rest, _, left, hs, hd, .inl ⟨segs, rfl, hsame.state_eq ▸ hr⟩⟩
  · obtain ⟨-, -, frame, rest, left, hs, hd⟩ := fetch_run_command hfetch rfl
    exact .inr ⟨frame, rest, _, left, hs, hd, .inr ⟨rfl, hb.trans hsame.buf_eq⟩⟩
  · exact .inl ⟨hb.trans hsame.buf_eq, hl.trans hsame.len_eq⟩

/-- Settles O32: a step that writes the buffer or its length ran a SUBMIT of HOST's while Ready, or INIT
(`step_buf_len`), and INIT writes the length alone (`execInit_cases`). -/
theorem bufferWriters : Obligations.BufferWriters := by
  refine ⟨fun s t h => ⟨fun ⟨a, ha⟩ => ?_, fun hlen => ?_⟩, fun s t h => ?_⟩
  · have hbuf : t.buf ≠ s.buf := fun e => ha (by rw [e])
    obtain ⟨e, -⟩ | ⟨frame, rest, i, left, hs, hd, ⟨segs, rfl, hr⟩ | ⟨-, e⟩⟩ := step_buf_len h
    · exact absurd e hbuf
    · exact ⟨frame, rest, segs, left, hs, hd, hr⟩
    · exact absurd e hbuf
  · obtain ⟨-, e⟩ | ⟨frame, rest, i, left, hs, hd, ⟨segs, rfl, hr⟩ | ⟨rfl, -⟩⟩ := step_buf_len h
    · exact absurd e hlen
    · exact ⟨frame, rest, _, left, hs, hd, .inr ⟨⟨segs, rfl⟩, hr⟩⟩
    · exact ⟨frame, rest, _, left, hs, hd, .inl rfl⟩
  · obtain ⟨-, -, rfl⟩ := execInit_cases h
    exact ⟨rfl, fun _ => rfl⟩

end Sys2Proof.Machine
end

section
/-! Encoding and decoding are inverse (R61 to R65, R70, R74), and which frames decode to an operation of HOST (R71). -/

namespace Sys2Proof

open Laws.FrameLength (opOf_commandWord nsegOf_commandWord)

/-! ### A command word and its three fields (R61) -/

/-- The `zero` field of an encoded command word is 0 (R61). -/
theorem zeroOf_commandWord (op : BitVec 4) (n : BitVec 16) : zeroOf (commandWord op n) = 0 := by
  apply BitVec.eq_of_toNat_eq
  have hn := n.isLt
  rw [toNat_zeroOf, toNat_commandWord]
  simp only [BitVec.ofNat_eq_ofNat, BitVec.toNat_ofNat]
  omega

/-- A word whose `zero` field is 0 is the command word of its other two fields. -/
theorem commandWord_opOf_nsegOf {w : Word} (h : zeroOf w = 0) : commandWord (opOf w) (nsegOf w) = w := by
  apply BitVec.eq_of_toNat_eq
  have hz : w.toNat / 2 ^ 16 % 2 ^ 12 = 0 := by rw [← toNat_zeroOf, h]; rfl
  rw [toNat_commandWord, toNat_opOf, toNat_nsegOf]
  omega

/-! ### The round trip -/

theorem decode_encode_submit {segs : List Segment} (h : segs.length ≤ 65535) (rest : List Word) :
    decode (encode (.submit segs) ++ rest) = .ok (.submit segs, rest) := by
  rw [encode, List.cons_append, decode_submit _ ⟨opOf_commandWord _ _, zeroOf_commandWord _ _⟩,
    nsegOf_commandWord _ h, readSegments_payload]

/-- Settles O7: a one-word instruction's word is its row's pattern; a SUBMIT's command word carries the number of segments, and
its payload reads back (`decode_encode_submit`). -/
theorem decodeGivesBackTheEncoded : Obligations.DecodeGivesBackTheEncoded := by
  intro i rest hwf
  cases i with
  | submit segs => exact decode_encode_submit (of_decide_eq_true hwf) rest
  | init | start | stop | status | capacity | periodElapsed | isrTe | isrFpe => rfl

/-- What a SUBMIT's word decodes to is a SUBMIT that the words encode. -/
theorem encode_of_decode_submit {w : Word} {ws rest : List Word} {i : Instr} (hw : opOf w = 0x1 ∧ zeroOf w = 0)
    (h : decode (w :: ws) = .ok (i, rest)) : i.wellFormed = true ∧ w :: ws = encode i ++ rest := by
  rw [decode_submit ws hw] at h
  split at h
  · cases h
  · rename_i segs left hr
    cases h
    obtain ⟨hlen, rfl⟩ := readSegments_some hr
    have hn := (nsegOf w).isLt
    refine ⟨decide_eq_true (by omega), ?_⟩
    rw [encode, hlen, BitVec.ofNat_toNat, BitVec.setWidth_eq, ← hw.1, commandWord_opOf_nsegOf hw.2, List.cons_append]

/-- Settles O8: a SUBMIT's word by `encode_of_decode_submit`; any other word that decodes is the pattern of its row
(`decode_oneWord`). -/
theorem encodeGivesBackTheDecoded : Obligations.EncodeGivesBackTheDecoded := by
  intro ws rest i h
  cases ws with
  | nil => cases h
  | cons w ws =>
    by_cases hw : opOf w = 0x1 ∧ zeroOf w = 0
    · exact encode_of_decode_submit hw h
    obtain ⟨rfl, e⟩ | ⟨rfl, e⟩ | ⟨rfl, e⟩ | ⟨rfl, e⟩ | ⟨rfl, e⟩ | ⟨rfl, e⟩ | ⟨rfl, e⟩ | ⟨rfl, e⟩ | ⟨-, e⟩ :=
      decode_oneWord ws hw <;> rw [e] at h <;> cases h
    all_goals exact ⟨rfl, rfl⟩

/-- Settles O6: the vectors' frames, each decoded by evaluation. -/
theorem sampleFramesDecode : Obligations.SampleFramesDecode :=
  ⟨rfl, rfl, rfl, rfl, rfl, rfl, rfl, rfl⟩

/-! ### The frames of the operations of HOST -/

/-- The fields of an operation of HOST: `zero` is 0, and it is a SUBMIT with all its payload or one of the other five with
`nseg` 0 (R61 to R65). -/
def HasCommandFields (w : Word) (ws : List Word) : Prop :=
  zeroOf w = 0 ∧
    ((opOf w = 0x1 ∧ 2 * (nsegOf w).toNat ≤ ws.length) ∨ ((opOf w).toNat ≤ 5 ∧ opOf w ≠ 0x1 ∧ nsegOf w = 0))

/-- What decodes to an operation of HOST is its encoding (`encodeGivesBackTheDecoded`), whose fields these are. -/
theorem hasCommandFields_of_decode {w : Word} {ws left : List Word} {i : Instr} (h : decode (w :: ws) = .ok (i, left))
    (hc : i.isCommand = true) : HasCommandFields w ws := by
  obtain ⟨hwf, e⟩ := encodeGivesBackTheDecoded _ _ _ h
  cases i with
  | submit segs =>
    obtain ⟨rfl, rfl⟩ := List.cons.inj e
    refine ⟨zeroOf_commandWord _ _, .inl ⟨opOf_commandWord _ _, ?_⟩⟩
    rw [nsegOf_commandWord _ (of_decide_eq_true hwf)]
    simp [length_payload]
  | init | start | stop | status | capacity =>
    obtain ⟨rfl, -⟩ := List.cons.inj e
    exact ⟨rfl, .inr (by decide)⟩
  | periodElapsed | isrTe | isrFpe => cases hc

/-- The five operations of HOST without a payload, by their `op` (R62). -/
theorem oneWordCommand_of_op {op : BitVec 4} (h : op.toNat ≤ 5) (h1 : op ≠ 0x1) :
    ∃ i : Instr, i.isCommand = true ∧ i.wellFormed = true ∧ encode i = [commandWord op 0] := by
  obtain rfl | rfl | rfl | rfl | rfl : op = 0x0 ∨ op = 0x2 ∨ op = 0x3 ∨ op = 0x4 ∨ op = 0x5 := by bv_omega
  · exact ⟨.init, rfl, rfl, rfl⟩
  · exact ⟨.start, rfl, rfl, rfl⟩
  · exact ⟨.stop, rfl, rfl, rfl⟩
  · exact ⟨.status, rfl, rfl, rfl⟩
  · exact ⟨.capacity, rfl, rfl, rfl⟩

/-- Exactly the frames with those fields decode to an operation of HOST. -/
theorem decode_command_iff (w : Word) (ws : List Word) :
    (∃ i left, decode (w :: ws) = .ok (i, left) ∧ i.isCommand = true) ↔
      HasCommandFields w ws := by
  constructor
  · rintro ⟨i, left, h, hc⟩
    exact hasCommandFields_of_decode h hc
  · rintro ⟨hz, ⟨hop, hlen⟩ | ⟨hop, h1, hn⟩⟩
    · cases hr : readSegments (nsegOf w).toNat ws with
      | none => exact absurd (readSegments_none.mp hr) (Nat.not_lt.mpr hlen)
      | some p => exact ⟨.submit p.1, p.2, by rw [decode_submit ws ⟨hop, hz⟩, hr], rfl⟩
    · obtain ⟨i, hc, hwf, he⟩ := oneWordCommand_of_op hop h1
      have hw : w :: ws = encode i ++ ws := by rw [he, ← hn, commandWord_opOf_nsegOf hz]; rfl
      exact ⟨i, ws, hw ▸ decodeGivesBackTheEncoded i ws hwf, hc⟩

end Sys2Proof
end

section
/-! What a step does with the schedule's next entry (R64, R65, R70, R71, R75, R140). -/

namespace Sys2Proof.Machine

/-- The words a frame leaves over are the next frame, where there are any (log 5). -/
theorem requeue_eq (ctx : Context) (left : List Word) (rest : List Turn) :
    requeue ctx left rest = if left = [] then rest else .host ctx left :: rest := by
  cases left <;> rfl

/-- Why an instruction is refused: never for a reason of the fetch. -/
theorem exec_refused {i : Instr} {s : State} {r : Refusal} (h : exec i s = .refused r) :
    r = .notEnabled i.agent ∨ r = .uninitialised ∨ r = .repeatedInit ∨ r = .noSuchSlot := by
  cases i <;> simp only [exec] at h
  case init =>
    obtain ⟨-, rfl⟩ | ⟨-, h⟩ := asAgent_refused.mp h
    · exact .inl rfl
    · split_ifs at h
      exact .inr (.inr (.inl (Host.Outcome.refused.inj h).symm))
  case periodElapsed =>
    obtain ⟨-, rfl⟩ | ⟨-, h⟩ := asAgent_refused.mp h
    · exact .inl rfl
    · split_ifs at h
      exact .inr (.inr (.inr (Host.Outcome.refused.inj h).symm))
  case isrTe | isrFpe =>
    obtain ⟨-, rfl⟩ | ⟨-, h⟩ := asAgent_refused.mp h
    · exact .inl rfl
    · cases h
  case submit segs =>
    obtain rfl | rfl | h := hostOp_refused h
    · exact .inl rfl
    · exact .inr (.inl rfl)
    · split at h
      · cases h
      · split at h <;> cases h
  case start =>
    obtain rfl | rfl | h := hostOp_refused h
    · exact .inl rfl
    · exact .inr (.inl rfl)
    · split at h
      · cases h
      · split_ifs at h
  case stop | status | capacity =>
    obtain rfl | rfl | h := hostOp_refused h
    · exact .inl rfl
    · exact .inr (.inl rfl)
    · cases h

section

variable {s : State} {frame left : List Word} {rest : List Turn} {i : Instr}

/-- With no event pending, HOST's entry is fetched. -/
theorem fetch_host {ctx : Context} (hs : s.sched = .host ctx frame :: rest) (ht : s.tePending = false)
    (hf : s.fpePending = false) : fetch s = fetchHost ctx frame rest s := by
  simp only [fetch, hs, pendingHandler_none.mpr ⟨ht, hf⟩]

/-- A frame of the caller that decodes to an operation of HOST is run. -/
theorem step_of_decode_command (hs : s.sched = .host .caller frame :: rest) (ht : s.tePending = false)
    (hf : s.fpePending = false) (hd : decode frame = .ok (i, left)) (hc : i.isCommand = true) :
    step s = exec i { s with sched := requeue .caller left rest } := by
  simp only [step, fetch_host hs ht hf, fetchHost, hd, hc, if_true]

/-- A frame that decodes to no operation of HOST is refused as reserved (R71). -/
theorem step_of_no_command {ctx : Context} (hs : s.sched = .host ctx frame :: rest) (ht : s.tePending = false)
    (hf : s.fpePending = false) (hn : ¬ ∃ i left, decode frame = .ok (i, left) ∧ i.isCommand = true) :
    step s = .refused .reservedEncoding := by
  have hr : fetchHost ctx frame rest s = .refuse .reservedEncoding := by
    unfold fetchHost
    split
    · rfl
    · rename_i j l hd
      exact if_neg fun hc => hn ⟨j, l, hd, hc⟩
  simp only [step, fetch_host hs ht hf, hr]

/-- A frame of the caller is refused as reserved exactly when it decodes to no operation of HOST. -/
theorem step_reserved_iff (hs : s.sched = .host .caller frame :: rest) (ht : s.tePending = false)
    (hf : s.fpePending = false) :
    step s = .refused .reservedEncoding ↔ ¬ ∃ i left, decode frame = .ok (i, left) ∧ i.isCommand = true := by
  refine ⟨?_, step_of_no_command hs ht hf⟩
  rintro h ⟨i, left, hd, hc⟩
  rw [step_of_decode_command hs ht hf hd hc] at h
  obtain e | e | e | e := exec_refused h <;> cases e

end

/-- Settles O9: the step refuses what decodes to no operation of HOST (`step_reserved_iff`), and R71's list is what the fields
of those frames leave out (`decode_command_iff`): what remains is arithmetic of `op`, `zero`, `nseg` and the payload's length. -/
theorem reservedFramesAreRefused : Obligations.ReservedFramesAreRefused := by
  intro s w ws rest hs ht hf
  rw [step_reserved_iff hs ht hf, decode_command_iff, HasCommandFields]
  bv_omega

/-- Settles O1: the frame is run (`step_of_decode_command`), and the words left over are the next frame (`requeue_eq`). -/
theorem stepRunsTheHostFrame : Obligations.StepRunsTheHostFrame := by
  intro s frame left rest i hs ht hf hd hc
  rw [step_of_decode_command hs ht hf hd hc, requeue_eq]

/-- Settles O2: a label that decodes to an internal step is fetched as that step, whatever is pending. -/
theorem stepRunsTheInternalLabel : Obligations.StepRunsTheInternalLabel := by
  intro s label left rest i hs hd hc
  have hfetch : fetch s = .run i { s with sched := rest } := by simp [fetch, hs, fetchInternal, hd, hc]
  simp only [step, hfetch]

end Sys2Proof.Machine
end

section
/-! What HOST sees of the engine: the response words of each operation (R68, R69) and the event lines (R76). -/

namespace Sys2Proof.Machine

@[simp] theorem statusResponse_ready : statusResponse .ready = 0x00000003 := rfl
@[simp] theorem voidResponse_eq : voidResponse = 0x00000000 := rfl
@[simp] theorem countResponse_maxPulses : countResponse maxPulses = 0x0A000000 := rfl

/-- Settles O36: each instruction's outcomes, by its own inversion lemma, and the word each outcome answers. -/
theorem responsesOfEachOperation : Obligations.ResponsesOfEachOperation := by
  intro i s t h
  cases i with
  | init =>
    obtain ⟨-, -, rfl⟩ := execInit_cases h
    simp
  | submit segs =>
    obtain ⟨-, ⟨-, rfl⟩ | ⟨-, -, rfl⟩ | ⟨-, -, rfl⟩⟩ := execSubmit_cases h <;> simp
  | start =>
    obtain ⟨-, ⟨-, rfl⟩ | ⟨-, -, rfl⟩ | ⟨-, -, -, rfl⟩⟩ := execStart_cases h <;> simp
  | stop =>
    obtain ⟨-, rfl⟩ := execStop_cases h
    simp
  | status =>
    obtain ⟨-, rfl⟩ := execStatus_cases h
    cases s.state <;> simp [EngineState.status]
  | capacity =>
    obtain ⟨-, rfl⟩ := execCapacity_cases h
    simp
  | periodElapsed =>
    obtain ⟨-, ⟨-, -, -, rfl⟩ | ⟨-, rfl⟩⟩ := execPeriodElapsed_cases h <;> simp
  | isrTe =>
    obtain ⟨-, rfl⟩ := execIsrTe_cases h
    simp
  | isrFpe =>
    obtain ⟨-, rfl⟩ := execIsrFpe_cases h
    simp

/-- A pair of lines made of two latches, the second above the first. -/
theorem getLsbD_ofBool_append : ∀ low high : Bool,
    (BitVec.ofBool high ++ BitVec.ofBool low : BitVec 2).getLsbD 0 = low ∧
      (BitVec.ofBool high ++ BitVec.ofBool low : BitVec 2).getLsbD 1 = high := by
  decide

/-- Settles O30: the low line is TE's latch, the high one FPE's. -/
theorem eventLinesAreTheLatches : Obligations.EventLinesAreTheLatches :=
  fun s => getLsbD_ofBool_append s.tePending s.fpePending

end Sys2Proof.Machine
end

section
/-! The Divider Calculator (R80 to R86): CLAMP on each of its ranges, the quotient `TOF / CLAMP(f)` between its two ends, and
the divider value, which is that quotient less 1. -/

namespace Sys2Proof.Machine

/-! ### CLAMP -/

theorem clamp_of_le_min {f : Nat} (h : f ≤ 100) : clamp f = 100 := by
  rw [clamp_eq]; split_ifs <;> omega

theorem clamp_of_max_le {f : Nat} (h : 20000 ≤ f) : clamp f = 20000 := by
  rw [clamp_eq]; split_ifs <;> omega

theorem clamp_of_mem_range {f : Nat} (hlo : 100 ≤ f) (hhi : f ≤ 20000) : clamp f = f := by
  rw [clamp_eq, if_neg (by omega), if_neg (by omega)]

/-- CLAMP's result is in the range, and there CLAMP changes nothing (R81). -/
@[simp] theorem clamp_clamp (f : Nat) : clamp (clamp f) = clamp f :=
  clamp_of_mem_range (clamp_bounds f).1 (clamp_bounds f).2

/-- The greater frequency is below the range, in it, or above it; above and below it CLAMP is constant (R81). -/
theorem clamp_le_clamp {f g : Nat} (h : f ≤ g) : clamp f ≤ clamp g := by
  obtain ⟨hf, hf'⟩ := clamp_bounds f
  rcases Nat.le_total g 100 with hg | hg
  · rw [clamp_of_le_min hg, clamp_of_le_min (h.trans hg)]
  rcases Nat.le_total 20000 g with hg' | hg'
  · rwa [clamp_of_max_le hg']
  rw [clamp_of_mem_range hg hg']
  rcases Nat.le_total f 100 with hlow | hmid
  · rwa [clamp_of_le_min hlow]
  · rwa [clamp_of_mem_range hmid (h.trans hg')]

/-- Settles O11: CLAMP is constant below and above the range and the identity in it (`clamp_of_le_min`, `clamp_of_max_le`,
`clamp_of_mem_range`), so it is idempotent (`clamp_clamp`) and non-decreasing (`clamp_le_clamp`). -/
theorem clampIntoTheRange : Obligations.ClampIntoTheRange :=
  ⟨fun _ h => clamp_of_le_min h.le, fun _ h => clamp_of_max_le h.le, fun _ => clamp_of_mem_range, clamp_clamp,
    fun _ _ => clamp_le_clamp⟩

/-- A clamped frequency fits a word, so the word that holds it holds it whole. -/
theorem toNat_ofNat_clamp (f : Nat) : (BitVec.ofNat 32 (clamp f)).toNat = clamp f := by
  have := clamp_bounds f
  rw [BitVec.toNat_ofNat, Nat.mod_eq_of_lt (by omega)]

/-! ### DIVIDER -/

/-- The quotient is least at the greatest frequency and greatest at the least (R84). -/
theorem tof_div_clamp_bounds (c : Config) (f : Nat) :
    c.tof / 20000 ≤ c.tof / clamp f ∧ c.tof / clamp f ≤ c.tof / 100 := by
  obtain ⟨hlo, hhi⟩ := clamp_bounds f
  exact ⟨Nat.div_le_div_left hhi (by omega), Nat.div_le_div_left hlo (by omega)⟩

/-- Settles O12: under R3 the quotient is at least `40000 / 20000 = 2` and at most `6553699 / 100 < 65537`, so neither the
subtraction nor the 16 bits lose anything (R83). -/
theorem dividerIsTheQuotientLessOne : Obligations.DividerIsTheQuotientLessOne := by
  intro c f
  obtain ⟨htlo, hthi⟩ := c.tof_bounds
  obtain ⟨hlo, hhi⟩ := tof_div_clamp_bounds c f.toNat
  rw [divider, BitVec.toNat_ofNat, Nat.mod_eq_of_lt (by omega), Nat.sub_add_cancel (by omega)]

theorem toNat_divider (c : Config) (f : Word) : (divider c f).toNat = c.tof / clamp f.toNat - 1 :=
  Nat.eq_sub_of_add_eq (dividerIsTheQuotientLessOne c f)

/-- Settles O13: the ends are those of the quotient (`tof_div_clamp_bounds`), taken where CLAMP is constant; the bounds are those
of every legal value (`legalDivider_divider`) and of its 16 bits. -/
theorem dividerRange : Obligations.DividerRange := by
  intro c f
  have hv := toNat_divider c f
  obtain ⟨hlo, hhi⟩ := tof_div_clamp_bounds c f.toNat
  obtain ⟨hone, htpt⟩ := legalDivider_divider c f
  have least : c.tof / 20000 - 1 ≤ (divider c f).toNat := by rw [hv]; exact Nat.sub_le_sub_right hlo 1
  have greatest : (divider c f).toNat ≤ c.tof / 100 - 1 := by rw [hv]; exact Nat.sub_le_sub_right hhi 1
  refine ⟨least, greatest, fun h => ?_, fun h => ?_, hone, Nat.le_of_lt_succ (divider c f).isLt, htpt, fun htof => ?_⟩
  · rw [hv, clamp_of_max_le h]
  · rw [hv, clamp_of_le_min h]
  · rw [htof] at least greatest
    exact ⟨least, greatest⟩

/-- Settles O14: a greater frequency has no smaller clamp (`clamp_le_clamp`), so no greater quotient; `1000000 / 19999` and
`1000000 / 20000` are both 50. -/
theorem dividerNeverIncreases : Obligations.DividerNeverIncreases := by
  constructor
  · intro c f g h
    rw [toNat_divider, toNat_divider]
    have hpos : 0 < clamp f.toNat := Nat.lt_of_lt_of_le (by decide) (clamp_bounds f.toNat).1
    exact Nat.sub_le_sub_right (Nat.div_le_div_left (clamp_le_clamp h) hpos) 1
  · intro c htof
    rw [toNat_divider, toNat_divider, htof]
    decide

/-- Settles O15: the divider value depends on the frequency through its clamp only, and CLAMP is idempotent (`clamp_clamp`). -/
theorem dividerAbsorbsTheClamp : Obligations.DividerAbsorbsTheClamp := by
  intro c f
  rw [divider, divider, toNat_ofNat_clamp, clamp_clamp]

end Sys2Proof.Machine
end

section
/-! The six operations of the command interface (R100 to R114): what each answers and writes in every case, and sequences
of them. -/

namespace Sys2Proof.Machine

/-! ### Each operation under its guards, case by case -/

section

variable {s : State}

/-- The first INIT. -/
theorem exec_init_first (ht : s.tePending = false) (hf : s.fpePending = false) (hi : s.initialised = false) :
    exec .init s = .next (s.initialise.respond voidResponse) := by
  simp only [exec, execInit]
  rw [asAgent_of_enabled (enabled_host.mpr ⟨ht, hf⟩)]
  simp [hi]

/-- A second INIT (U4). -/
theorem exec_init_again (ht : s.tePending = false) (hf : s.fpePending = false) (hi : s.initialised = true) :
    exec .init s = .refused .repeatedInit := by
  simp only [exec, execInit]
  rw [asAgent_of_enabled (enabled_host.mpr ⟨ht, hf⟩)]
  simp [hi]

variable (ht : s.tePending = false) (hf : s.fpePending = false) (hi : s.initialised = true)

include ht hf hi

/-- SUBMIT while Busy, whatever the list. -/
theorem exec_submit_busy (segs : List Segment) (hs : s.state = .busy) :
    exec (.submit segs) s = .next (s.respond (statusResponse .busy)) := by
  simp only [exec]
  rw [execSubmit_of_guards segs ht hf hi]
  simp only [hs]

/-- SUBMIT of more slots than the buffer has. -/
theorem exec_submit_overflow {segs : List Segment} (hs : s.state = .ready) (hl : maxPulses < totalCount segs) :
    exec (.submit segs) s = .next (s.respond (statusResponse .overflow)) := by
  have hb : build s.cfg segs s.buf = none := if_pos hl
  simp only [exec]
  rw [execSubmit_of_guards segs ht hf hi]
  simp only [hs, hb]

/-- SUBMIT of a list that fits. -/
theorem exec_submit_stage {segs : List Segment} (hs : s.state = .ready) (hl : totalCount segs ≤ maxPulses) :
    exec (.submit segs) s = .next
      ((s.stage (Memory.writeFrom s.buf 0 (expand s.cfg segs)) (totalCount segs)).respond (statusResponse .ok)) := by
  have hb : build s.cfg segs s.buf = some (Memory.writeFrom s.buf 0 (expand s.cfg segs), totalCount segs) :=
    if_neg (Nat.not_lt.mpr hl)
  simp only [exec]
  rw [execSubmit_of_guards segs ht hf hi]
  simp only [hs, hb]

/-- START while Busy. -/
theorem exec_start_busy (hs : s.state = .busy) :
    exec .start s = .next (s.respond (statusResponse .busy)) := by
  simp only [exec]
  rw [execStart_of_guards ht hf hi]
  simp only [hs]

/-- START with nothing staged. -/
theorem exec_start_unstaged (hs : s.state = .ready) (hp : s.pending = false) :
    exec .start s = .next (s.respond (statusResponse .overflow)) := by
  simp only [exec]
  rw [execStart_of_guards ht hf hi]
  simp [hs, hp]

/-- START of an empty staged buffer (R107). -/
theorem exec_start_empty (hs : s.state = .ready) (hp : s.pending = true) (hl : s.len = 0) :
    exec .start s = .fault .startEmptyBuffer := by
  simp only [exec]
  rw [execStart_of_guards ht hf hi]
  simp [hs, hp, hl]

theorem exec_status {e : EngineState} (hs : s.state = e) :
    exec .status s = .next (s.respond (statusResponse e.status)) := by
  subst hs
  simp only [exec, execStatus]
  rw [hostOp_of_guards ht hf hi]

theorem exec_capacity : exec .capacity s = .next (s.respond (countResponse maxPulses)) := by
  simp only [exec, execCapacity]
  rw [hostOp_of_guards ht hf hi]

end

/-! ### The slots BUILD writes -/

/-- The exact total is the sum of the counts (R91). -/
theorem totalCount_eq_sum (segs : List Segment) : totalCount segs = (segs.map fun g => g.count.toNat).sum := by
  induction segs with
  | nil => rfl
  | cons g gs ih => simp [totalCount, ih]

/-- The slots of a list are those of its parts, in order (R93). -/
theorem expand_append (c : Config) (gs hs : List Segment) : expand c (gs ++ hs) = expand c gs ++ expand c hs := by
  induction gs with
  | nil => rfl
  | cons g gs ih => simp [expand, ih]

/-- A segment's slots begin after those of the segments before it and all hold its divider value (R93, R94). -/
theorem getD_expand_segment (c : Config) (pre post : List Segment) (g : Segment) {k : Nat} (hk : k < g.count.toNat)
    (v : Slot) : (expand c (pre ++ g :: post)).getD (totalCount pre + k) v = divider c g.frequency := by
  rw [expand_append, ← length_expand c pre, List.getD_append_right _ _ _ _ (Nat.le_add_right _ _),
    Nat.add_sub_cancel_left, expand, List.getD_append _ _ _ _ (by simpa using hk)]
  simp [hk]

/-! ### One operation -/

/-- Settles O19: Busy is tested first, then BUILD's total; the slots BUILD writes are read back by `Memory.read_writeFrom`, and
each segment's stand where `getD_expand_segment` says. -/
theorem submitResult : Obligations.SubmitResult := by
  intro s segs ht hf hi
  rw [← totalCount_eq_sum]
  refine ⟨exec_submit_busy ht hf hi segs, exec_submit_overflow ht hf hi, fun hs hl hm => ?_⟩
  have hfit : 0 + (expand s.cfg segs).length ≤ maxPulses := by rw [length_expand, Nat.zero_add]; exact hl
  have hread := fun i => Memory.read_writeFrom (i := i) hm hfit
  simp only [Nat.zero_le, if_true, Nat.sub_zero] at hread
  refine ⟨Memory.writeFrom s.buf 0 (expand s.cfg segs), exec_submit_stage ht hf hi hs hl,
    fun pre g post hsegs k hk => ?_, fun i hle => ?_⟩
  · rw [hread, hsegs, ← totalCount_eq_sum, getD_expand_segment _ _ _ _ hk]
  · rw [hread, List.getD_eq_default _ _ (by rwa [length_expand])]

/-- Settles O17: the writes of `State.initialise` are R101's, and a second INIT meets the one further guard. -/
theorem initResult : Obligations.InitResult :=
  fun _ ht hf => ⟨exec_init_again ht hf, exec_init_first ht hf⟩

/-- Settles O20: the four cases of START; with no event pending, TE is raised exactly where R108 says. -/
theorem startResult : Obligations.StartResult := by
  intro s ht hf hi
  refine ⟨exec_start_busy ht hf hi, exec_start_unstaged ht hf hi, exec_start_empty ht hf hi, fun hs hp hl => ?_⟩
  rw [exec_start_run ht hf hi hs hp (Nat.one_le_iff_ne_zero.mp hl)]
  simp [State.launch, State.respond, teRaisedByStart, ht]

/-- Settles O21: the writes of `State.haltEmission` are R109's three. -/
theorem stopResult : Obligations.StopResult := fun _ => exec_stop

/-- Settles O25: the word STATUS answers is the code of the state's status. -/
theorem statusResult : Obligations.StatusResult :=
  fun _ ht hf hi => ⟨exec_status ht hf hi, exec_status ht hf hi⟩

/-- Settles O26: CAPACITY reads no element, and its count is the number of slots. -/
theorem capacityResult : Obligations.CapacityResult := fun _ => exec_capacity

/-! ### One operation after another -/

/-- Halting writes nothing where the output is low, the timer halted and the engine Ready. -/
theorem State.haltEmission_of_halted {s : State} (ho : s.timOut = .forcedLow) (hr : s.timRunning = false)
    (hs : s.state = .ready) : s.haltEmission = s := by
  rw [State.haltEmission, ← ho, ← hr, ← hs]

/-- In a Ready state of the invariant the engine is halted and no event is pending (R37 items 3 and 7). -/
theorem Inv.halted_of_ready {s : State} (hI : Inv s) (hs : s.state = .ready) :
    s.timOut = .forcedLow ∧ s.timRunning = false ∧ s.tePending = false ∧ s.fpePending = false := by
  have hnb : s.state ≠ .busy := by simp [hs]
  have hr : s.timRunning = false := by simpa using mt hI.busy_iff_running.mpr hnb
  refine ⟨?_, hr, by simpa using mt (fun h => (hI.te h).1) hnb, by simpa using mt (fun h => (hI.fpe h).1) hnb⟩
  cases ho : s.timOut with
  | forcedLow => rfl
  | pwm => simpa [hr] using hI.running_iff_pwm.mpr ho

/-- Settles O22: STOP's three writes (`State.haltEmission`) change nothing where the engine is halted, which it is in a Ready
state of the invariant (`Inv.halted_of_ready`) and after STOP. -/
theorem stopWhileReadyChangesNothing : Obligations.StopWhileReadyChangesNothing := by
  refine ⟨fun s hI hs hi => ?_, fun s t h => ?_⟩
  · obtain ⟨ho, hr, ht, hf⟩ := hI.halted_of_ready hs
    rw [exec_stop ht hf hi, State.haltEmission_of_halted ho hr hs]
    rfl
  · obtain ⟨⟨⟨ht, hf⟩, hi⟩, rfl⟩ := execStop_cases h
    exact exec_stop ht hf hi

/-- Settles O23: STOP leaves the staging, and makes the state Ready, so START then begins the run. -/
theorem stagedBufferSurvivesStop : Obligations.StagedBufferSurvivesStop := by
  intro s t h hp hl
  obtain ⟨⟨⟨ht, hf⟩, hi⟩, rfl⟩ := execStop_cases h
  exact ⟨rfl, rfl, _, exec_start_run ht hf hi rfl hp (Nat.one_le_iff_ne_zero.mp hl), rfl, rfl, rfl⟩

/-- Settles O24: the rejected SUBMIT only answers, so START finds the guards and the buffer it would have found before. -/
theorem oldBufferPlaysAfterOverflow : Obligations.OldBufferPlaysAfterOverflow := by
  intro s segs ht hf hi hs hp hl hover
  rw [← totalCount_eq_sum] at hover
  refine ⟨_, _, exec_submit_overflow ht hf hi hs hover,
    exec_start_run ht hf hi hs hp (Nat.one_le_iff_ne_zero.mp hl), ?_⟩
  simp

/-- An instruction keeps `state`, or is a START that begins a run, or is one of the three that make the engine Ready. -/
theorem exec_state {i : Instr} {s t : State} (h : exec i s = .next t) :
    t.state = s.state ∨ (i = .start ∧ s.pending = true ∧ s.len ≠ 0 ∧ t.state = .busy) ∨
      (((i = .init ∧ s.initialised = false) ∨ i = .stop ∨ i = .isrFpe) ∧ t.state = .ready) := by
  rcases exec_cases h with ⟨rfl, hi, rfl⟩ | ⟨_, rfl, -⟩ | ⟨_, -, -, rfl⟩ | ⟨rfl, -, hp, hl, rfl⟩ | ⟨rfl, rfl⟩ |
    ⟨-, -, -, -, rfl⟩ | ⟨-, -, -, rfl⟩ | ⟨-, -, rfl⟩ | ⟨rfl, -, -, rfl⟩
  · exact .inr (.inr ⟨.inl ⟨rfl, hi⟩, rfl⟩)
  · exact .inl rfl
  · exact .inl rfl
  · exact .inr (.inl ⟨rfl, hp, hl, rfl⟩)
  · exact .inr (.inr ⟨.inr (.inl rfl), rfl⟩)
  · exact .inl rfl
  · exact .inl rfl
  · exact .inl rfl
  · exact .inr (.inr ⟨.inr (.inr rfl), rfl⟩)

/-- Settles O40: only START makes the engine Busy, and only INIT, STOP and ISR_FPE make it Ready (`exec_state`); INIT has run in a
busy state of the invariant, so it is not INIT that ends a run. -/
theorem busyBeginsAndEnds : Obligations.BusyBeginsAndEnds := by
  intro i s t hI h
  obtain he | ⟨rfl, hp, hl, he⟩ | ⟨⟨-, hi⟩ | hi, he⟩ := exec_state h
  · exact ⟨fun hr hb => by simp [he, hr] at hb, fun hb hr => by simp [he, hb] at hr⟩
  · exact ⟨fun _ _ => ⟨rfl, hp, Nat.one_le_iff_ne_zero.mpr hl⟩, fun _ hr => by simp [he] at hr⟩
  · exact ⟨fun _ hb => by simp [he] at hb, fun hb _ => by simp [hI.initialised_of_busy hb] at hi⟩
  · exact ⟨fun _ hb => by simp [he] at hb, fun _ _ => hi⟩

/-! ### A run of one slot -/

/-- With TE pending and nothing left to stream, ISR_TE, one period and ISR_FPE end the run. -/
theorem steps_isrTe_period_isrFpe {s : State} {rest : List Turn}
    (hs : s.sched = isrTeTurn :: tickTurn :: isrFpeTurn :: rest) (ht : s.tePending = true) (hr : s.timRunning = true)
    (h0 : s.xfRem = 0) :
    ∃ t, steps 3 s = .next t ∧ t.state = .ready ∧ t.sched = rest ∧ t.emitted = s.emitted ++ [s.timReload] := by
  have hisrTe := (step_isrTeTurn hs).trans (exec_isrTe ht)
  have hperiod := (step_tickTurn (s := (State.ackTe { s with sched := tickTurn :: isrFpeTurn :: rest }).armPeriodIrq)
    rfl).trans (exec_period_repeat hr h0)
  have hisrFpe := (step_isrFpeTurn (s := (State.ackTe { s with sched := isrFpeTurn :: rest }).armPeriodIrq.completePeriod)
    rfl).trans (exec_isrFpe (by simp [fpeRaisedByElapse]) rfl)
  exact ⟨_, (steps_succ hisrTe).trans ((steps_succ hperiod).trans (steps_succ hisrFpe)), rfl, rfl, rfl⟩

section

variable {s : State} {rest : List Turn} (hi : s.initialised = true) (hr : s.state = .ready) (hp : s.pending = true)
  (ht : s.tePending = false) (hf : s.fpePending = false)

include hi hr hp ht hf

/-- A step whose entry is HOST's START of a staged buffer that is not empty. -/
theorem step_start_run (hs : s.sched = hostTurn .start :: rest) (hl : s.len ≠ 0) :
    step s = .next (State.respond (State.launch { s with sched := rest }) (statusResponse .ok)) := by
  rw [step_hostTurn (.inl rfl) hs ht hf]
  exact exec_start_run ht hf hi hr hp hl

variable (hl : s.len = 1)

include hl

/-- Where the device does not fire on a stream of zero values, START of one slot leaves nothing to stream, no event and the
interrupt disabled, so any number of periods only repeats the value (R108). -/
theorem steps_start_never (hz : s.cfg.zeroLengthStream = .never) (n : Nat)
    (hs : s.sched = hostTurn .start :: (List.replicate n tickTurn ++ rest)) :
    ∃ t, steps (n + 1) s = .next t ∧ t.state = .busy ∧ t.xfRem = 0 ∧
      t.tePending = false ∧ t.fpePending = false ∧ t.timPeIrqEn = false ∧
      t.emitted = s.emitted ++ List.replicate n (Memory.read s.buf 0) ∧ t.initialised = true ∧ t.sched = rest := by
  have hstart := step_start_run hi hr hp ht hf hs (by simp [hl])
  have hperiods := steps_repeat n (State.respond (State.launch { s with sched := List.replicate n tickTurn ++ rest })
    (statusResponse .ok)) rest rfl rfl (by simp [hl])
  refine ⟨_, (steps_succ hstart).trans hperiods, rfl, ?_⟩
  simp [hl, ht, hf, hi, hz, teRaisedByStart]

/-- Where the device fires, START of one slot raises TE itself, so ISR_TE, one period and ISR_FPE end the run (R108). -/
theorem steps_start_fires (hz : s.cfg.zeroLengthStream = .fires)
    (hs : s.sched = hostTurn .start :: isrTeTurn :: tickTurn :: isrFpeTurn :: rest) :
    ∃ t u, step s = .next t ∧ t.tePending = true ∧ t.xfRem = 0 ∧ steps 3 t = .next u ∧
      u.state = .ready ∧ u.sched = rest ∧ u.emitted = s.emitted ++ [Memory.read s.buf 0] := by
  have hstart := step_start_run hi hr hp ht hf hs (by simp [hl])
  obtain ⟨t, hstep, hte, hrem, hrun, hts, hreload, hem⟩ : ∃ t, step s = .next t ∧ t.tePending = true ∧ t.xfRem = 0 ∧
      t.timRunning = true ∧ t.sched = isrTeTurn :: tickTurn :: isrFpeTurn :: rest ∧
      t.timReload = Memory.read s.buf 0 ∧ t.emitted = s.emitted :=
    ⟨_, hstart, by simp [teRaisedByStart, hl, hz], by simp [hl], rfl, rfl, rfl, rfl⟩
  obtain ⟨u, hsteps, hur, hus, hue⟩ := steps_isrTe_period_isrFpe hts hte hrun hrem
  exact ⟨t, u, hstep, hte, hrem, hsteps, hur, hus, by rw [hue, hem, hreload]⟩

end

/-- Settles O50: with `never` the engine plays on after any number of periods (`steps_start_never`) and STOP finds the guards of
R100; with `fires` the run ends by itself (`steps_start_fires`). -/
theorem oneSlotRun : Obligations.OneSlotRun := by
  intro s rest hi hr hp hl ht hf
  refine ⟨fun hz n hs => ?_, fun hz hs => ?_⟩
  · obtain ⟨t, hsteps, hb, hrem, hte, hfe, hirq, hem, hti, hts⟩ := steps_start_never hi hr hp ht hf hl hz n hs
    have hstop := (step_hostTurn (.inr rfl) hts hte hfe).trans (exec_stop hte hfe hti)
    have hend := (steps_add (b := 1) hsteps).trans (steps_succ hstop)
    exact ⟨⟨t, hsteps, hb, hrem, hte, hfe, hirq, hem⟩, _, hend, rfl, hem⟩
  · obtain ⟨t, u, hstep, hte, hrem, hsteps, hu⟩ := steps_start_fires hi hr hp ht hf hl hz hs
    have hone : steps 1 s = .next t := steps_succ hstep
    exact ⟨t, hone, hte, hrem, u, (steps_add hone).trans hsteps, hu⟩

end Sys2Proof.Machine
end

section
/-! The timer and the run of a buffer (R124 to R131): what one period does, what a run of two or more slots emits, and that the
machine left alone makes one of these runs. -/

namespace Sys2Proof.Machine

/-! ### A period -/

/-- Settles O16: a period lasts `n = TOF / CLAMP(f)` overflows (`dividerIsTheQuotientLessOne`), and the quotient times the divisor
is at most the dividend, which is below the next multiple. -/
theorem producedFrequencyMeetsTheRequest : Obligations.ProducedFrequencyMeetsTheRequest := by
  intro c f
  have hn : periodOverflows (divider c f) = c.tof / clamp f.toNat := dividerIsTheQuotientLessOne c f
  have hpos : 0 < clamp f.toNat := Nat.lt_of_lt_of_le (by decide) (clamp_bounds f.toNat).1
  rw [hn]
  exact ⟨Nat.mul_div_le _ _, Nat.lt_mul_div_succ _ hpos⟩

/-- A period with the channel disabled streams nothing, whatever is left (R128). -/
theorem exec_period_disabled {s : State} (hr : s.timRunning = true) (hx : s.xfEn = false) :
    exec .periodElapsed s = .next s.completePeriod := by
  simp only [exec, execPeriodElapsed]
  rw [asAgent_of_enabled (a := .timer) (s := s) hr]
  simp [hx]

/-- Settles O27: the writes of `State.completePeriod` and `State.stream` are R124's; a latch is set where its event is raised and
kept elsewhere. -/
theorem periodElapsedResult : Obligations.PeriodElapsedResult := by
  intro s
  refine ⟨fun t h => (execPeriodElapsed_cases h).1, fun hr hx h0 hs => ?_, fun hr hrest => ?_⟩
  · have hlast : s.xfRem - 1 = 0 ↔ s.xfRem = 1 := by omega
    rw [exec_period_stream hr hx h0 hs]
    simp [State.stream, State.completePeriod, fpeRaisedByElapse, teRaisedByStream, hlast, Bool.or_comm]
  · have hquiet : exec .periodElapsed s = .next s.completePeriod := by
      rcases hrest with hx | h0
      · exact exec_period_disabled hr hx
      · exact exec_period_repeat hr h0
    rw [hquiet]
    simp [State.completePeriod, fpeRaisedByElapse, Bool.or_comm]

/-! ### The slots of a run -/

theorem length_bufferValues (s : State) : (bufferValues s).length = s.len := by simp [bufferValues]

/-- The first `n + 1` slots are the first `n` and slot `n`. -/
theorem take_succ_bufferValues {s : State} {n : Nat} (h : n < s.len) :
    (bufferValues s).take (n + 1) = (bufferValues s).take n ++ [Memory.read s.buf n] := by
  rw [List.take_add_one, List.getElem?_eq_getElem (by rwa [length_bufferValues])]
  simp [bufferValues]

/-- The first slot and the `n` after it are the first `n + 1`. -/
theorem cons_map_read_eq_take {s : State} {n : Nat} (h : n < s.len) :
    Memory.read s.buf 0 :: (List.range n).map (fun k => Memory.read s.buf (1 + k)) = (bufferValues s).take (n + 1) := by
  rw [bufferValues, ← List.map_take, List.take_range, Nat.min_eq_left (Nat.succ_le_of_lt h), List.range_succ_eq_map]
  simp [Function.comp_def, Nat.add_comm]

/-! ### A run under PROMPT_SERVICE -/

section

variable {s : State} {before : List Slot}

/-- A period of a busy engine with FPE not pending completes slot `xf_src - 1`, the one playing. -/
theorem Played.emitted_completePeriod (hI : Inv s) (hb : s.state = .busy) (hP : Played before s)
    (hf : s.fpePending = false) : s.completePeriod.emitted = before ++ (bufferValues s).take s.xfSrc := by
  obtain ⟨hem, hrel, -⟩ := hP
  obtain ⟨-, hsrc, hpos⟩ := hI.position hb
  have hslot := take_succ_bufferValues (s := s) (n := s.xfSrc - 1) (by omega)
  rw [Nat.sub_add_cancel hsrc] at hslot
  simp [hem, hf, hrel, hslot]

/-- A period with a slot left: the interrupt is disabled, so FPE is not raised, and the next slot plays. -/
theorem Played.stream (hI : Inv s) (hb : s.state = .busy) (hP : Played before s) (hf : s.fpePending = false)
    (h0 : 0 < s.xfRem) : Played before (s.completePeriod.stream (Memory.read s.buf s.xfSrc)) := by
  have hirq : s.timPeIrqEn = false := by
    by_contra h
    have := hI.armed hb (by simpa using h)
    omega
  have hem := hP.emitted_completePeriod hI hb hf
  refine ⟨?_, rfl, fun hlast => .inl ?_⟩
  · have hfpe : (s.completePeriod.stream (Memory.read s.buf s.xfSrc)).fpePending = false := by
      simp [hf, hirq, fpeRaisedByElapse]
    rw [hfpe]
    exact hem
  · have hlast' : s.xfRem - 1 = 0 := hlast
    simp [teRaisedByStream, hlast']

/-- A period with no slot left and no event pending: ISR_TE has armed the interrupt, so FPE is raised. -/
theorem Played.repeat (hI : Inv s) (hb : s.state = .busy) (hP : Played before s) (ht : s.tePending = false)
    (hf : s.fpePending = false) (h0 : s.xfRem = 0) : Played before s.completePeriod := by
  have hem := hP.emitted_completePeriod hI hb hf
  obtain ⟨-, hrel, hserved⟩ := hP
  have hirq : s.timPeIrqEn = true := (hserved h0).resolve_left (by simp [ht])
  have hfpe : s.completePeriod.fpePending = true := by simp [hirq, fpeRaisedByElapse]
  refine ⟨?_, hrel, fun _ => .inr hirq⟩
  rw [hfpe]
  exact hem

/-- With FPE pending the run has emitted its whole buffer. -/
theorem Played.emitted_of_fpe (hI : Inv s) (hP : Played before s) (hf : s.fpePending = true) :
    s.emitted = before ++ bufferValues s := by
  obtain ⟨hem, -⟩ := hP
  obtain ⟨hb, h0, -⟩ := hI.fpe hf
  obtain ⟨-, -, hpos⟩ := hI.position hb
  rw [hem, if_pos hf, List.take_of_length_le (by rw [length_bufferValues]; omega)]

end

/-- Settles O49: a period completes the slot playing (`Played.stream`, `Played.repeat`), ISR_TE arms the interrupt and observes
nothing, and ISR_FPE ends a run that has emitted its whole buffer (`Played.emitted_of_fpe`). -/
theorem promptRunEmitsExactlyTheBuffer : Obligations.PromptRunEmitsExactlyTheBuffer := by
  intro i s t before hI hb _ hP hc hprompt h
  cases i with
  | init | submit | start | stop | status | capacity => cases hc
  | periodElapsed =>
    obtain ⟨ht, hf⟩ := hprompt rfl
    obtain ⟨-, ⟨-, h0, -, rfl⟩ | ⟨hx, rfl⟩⟩ := execPeriodElapsed_cases h
    · exact ⟨fun _ => hP.stream hI hb hf h0, fun hr => by simp [hb] at hr, rfl⟩
    · have h0 : s.xfRem = 0 := hx.resolve_left (by simp [(hI.position hb).1])
      exact ⟨fun _ => hP.repeat hI hb ht hf h0, fun hr => by simp [hb] at hr, rfl⟩
  | isrTe =>
    obtain ⟨-, rfl⟩ := execIsrTe_cases h
    obtain ⟨hem, hrel, -⟩ := hP
    exact ⟨fun _ => ⟨hem, hrel, fun _ => .inr rfl⟩, fun hr => by simp [hb] at hr, rfl⟩
  | isrFpe =>
    obtain ⟨⟨hf, -⟩, rfl⟩ := execIsrFpe_cases h
    have hem := hP.emitted_of_fpe hI hf
    exact ⟨nofun, fun _ => hem, rfl⟩

end Sys2Proof.Machine
end

section
/-! Whole runs of a buffer of two or more slots (R129): the run a schedule names, period by period and handler by handler, and that
the machine left alone makes one of these runs (R157, log 2). -/

namespace Sys2Proof.Machine

/-! ### A run as scheduled -/

/-- In a run of the buffer staged in `s`, every slot has been streamed, the last one plays, and `e` has been emitted since
START. -/
structure LastSlotPlays (s : State) (e : List Slot) (t : State) : Prop where
  running : t.timRunning = true
  remaining : t.xfRem = 0
  reload : t.timReload = Memory.read s.buf (s.len - 1)
  emitted : t.emitted = s.emitted ++ e
  unstaged : t.pending = false
  buf : t.buf = s.buf
  len : t.len = s.len
  responses : t.responses = s.responses ++ [0x00000000]

/-- What a run of the buffer staged in `s` leaves once ISR_FPE has ended it, `e` having been emitted since START. -/
structure RunEnded (s : State) (e : List Slot) (t : State) : Prop where
  emitted : t.emitted = s.emitted ++ e
  ready : t.state = .ready
  unstaged : t.pending = false
  halted : t.timRunning = false
  low : t.timOut = .forcedLow
  noTe : t.tePending = false
  noFpe : t.fpePending = false
  buf : t.buf = s.buf
  len : t.len = s.len
  responses : t.responses = s.responses ++ [0x00000000]

/-- The schedule of a run in its three parts: START and the streamed periods, up to ISR_TE, up to ISR_FPE. -/
theorem runSchedule_eq (n p q : Nat) :
    runSchedule n p q = hostTurn .start :: (List.replicate (n - 1) tickTurn ++
      (List.replicate p tickTurn ++ isrTeTurn :: (List.replicate (1 + q) tickTurn ++ [isrFpeTurn]))) := by
  simp only [runSchedule, List.replicate_add, List.append_assoc, List.cons_append, List.nil_append]

theorem length_runSchedule {n : Nat} (hn : 1 ≤ n) (p q : Nat) : (runSchedule n p q).length = n + p + q + 3 := by
  simp [runSchedule]
  omega

section

variable {s t : State} {e : List Slot} {rest : List Turn}

/-- START of a staged buffer, and a period for every slot but the last: all slots are streamed, and the period that streams the
last raises TE (R126). -/
theorem steps_start_stream (hI : Inv s) (hi : s.initialised = true) (hr : s.state = .ready) (hp : s.pending = true)
    (hl : 2 ≤ s.len) (hs : s.sched = hostTurn .start :: (List.replicate (s.len - 1) tickTurn ++ rest)) :
    ∃ t, steps s.len s = .next t ∧ LastSlotPlays s ((bufferValues s).take (s.len - 1)) t ∧ t.tePending = true ∧
      t.fpePending = false ∧ t.timPeIrqEn = false ∧ t.sched = rest := by
  obtain ⟨-, -, ht, hf⟩ := hI.halted_of_ready hr
  have hlen : s.len ≤ maxPulses := hI.length
  obtain ⟨n, hn⟩ : ∃ n, s.len = n + 1 + 1 := ⟨s.len - 2, by omega⟩
  have hstart := step_start_run hi hr hp ht hf hs (by omega)
  have hstream := steps_stream (n + 1)
    (State.respond (State.launch { s with sched := List.replicate (s.len - 1) tickTurn ++ rest }) (statusResponse .ok)) rest
    (by simp [hn]) rfl rfl (by simp [hn]) (by simp; omega) rfl (by simp [ht, hn, teRaisedByStart]) (Nat.succ_pos n)
  have hplayed := cons_map_read_eq_take (s := s) (n := n) (by omega)
  refine ⟨_, (congrArg (steps · s) hn).trans ((steps_succ hstart).trans hstream), ?_, by simp [hn], hf, rfl, rfl⟩
  exact ⟨rfl, by simp [hn], by simp [hn, Nat.add_comm], by simp [hn, ← hplayed], rfl, rfl, rfl, by simp⟩

/-- Late periods repeat the last slot (R128). -/
theorem LastSlotPlays.steps_repeat (h : LastSlotPlays s e t) (n : Nat)
    (hs : t.sched = List.replicate n tickTurn ++ rest) :
    ∃ u, steps n t = .next u ∧ LastSlotPlays s (e ++ List.replicate n (Memory.read s.buf (s.len - 1))) u ∧
      u.tePending = t.tePending ∧ u.fpePending = (t.fpePending || (t.timPeIrqEn && decide (0 < n))) ∧
      u.timPeIrqEn = t.timPeIrqEn ∧ u.sched = rest :=
  ⟨_, Machine.steps_repeat n t rest hs h.running h.remaining,
    { h with emitted := by simp [h.emitted, h.reload] }, rfl, rfl, rfl, rfl⟩

/-- `p` late periods and then ISR_TE, which arms the interrupt (R144). -/
theorem LastSlotPlays.steps_isrTe (h : LastSlotPlays s e t) (p : Nat) (hte : t.tePending = true)
    (hf : t.fpePending = false) (hirq : t.timPeIrqEn = false)
    (hs : t.sched = List.replicate p tickTurn ++ isrTeTurn :: rest) :
    ∃ u, steps (p + 1) t = .next u ∧ LastSlotPlays s (e ++ List.replicate p (Memory.read s.buf (s.len - 1))) u ∧
      u.tePending = false ∧ u.fpePending = false ∧ u.timPeIrqEn = true ∧ u.sched = rest := by
  obtain ⟨u, hsteps, hu, hute, huf, -, hus⟩ := h.steps_repeat p hs
  have hisr := (step_isrTeTurn hus).trans (exec_isrTe (hute.trans hte))
  exact ⟨_, (steps_add hsteps).trans (steps_succ hisr), { hu with }, rfl, by simp [huf, hf, hirq], rfl, rfl⟩

/-- With the interrupt armed, a period raises FPE; `q` late periods more and then ISR_FPE, which ends the run (R145). -/
theorem LastSlotPlays.steps_isrFpe (h : LastSlotPlays s e t) (q : Nat) (hte : t.tePending = false)
    (hirq : t.timPeIrqEn = true) (hs : t.sched = List.replicate (1 + q) tickTurn ++ isrFpeTurn :: rest) :
    ∃ u, steps (1 + q + 1) t = .next u ∧
      RunEnded s (e ++ List.replicate (1 + q) (Memory.read s.buf (s.len - 1))) u ∧ u.sched = rest := by
  obtain ⟨u, hsteps, hu, hute, huf, -, hus⟩ := h.steps_repeat (1 + q) hs
  have hisr := (step_isrFpeTurn hus).trans (exec_isrFpe (by simp [huf, hirq]) (hute.trans hte))
  exact ⟨_, (steps_add hsteps).trans (steps_succ hisr),
    ⟨hu.emitted, rfl, hu.unstaged, rfl, rfl, hute.trans hte, rfl, hu.buf, hu.len, hu.responses⟩, rfl⟩

end

/-- The slots before the last, `p` late copies of it, its own period and `q` late copies more. -/
theorem emitted_of_run {s : State} (hl : 2 ≤ s.len) (p q : Nat) :
    (bufferValues s).take (s.len - 1) ++ List.replicate p (Memory.read s.buf (s.len - 1)) ++
        List.replicate (1 + q) (Memory.read s.buf (s.len - 1)) =
      bufferValues s ++ List.replicate (p + q) (Memory.read s.buf (s.len - 1)) := by
  have hall := take_succ_bufferValues (s := s) (n := s.len - 1) (by omega)
  rw [Nat.sub_add_cancel (by omega), List.take_of_length_le (length_bufferValues s).le] at hall
  conv_rhs => rw [hall, List.append_assoc, ← List.replicate_one, List.replicate_append_replicate]
  rw [List.append_assoc, List.replicate_append_replicate, Nat.add_left_comm]

/-- Settles O48: START and the streamed periods (`steps_start_stream`), ISR_TE after `p` late periods
(`LastSlotPlays.steps_isrTe`) and ISR_FPE after `q` (`LastSlotPlays.steps_isrFpe`). -/
theorem runEmitsTheBufferThenLateCopies : Obligations.RunEmitsTheBufferThenLateCopies := by
  intro s p q rest hI hi hr hp hl hs
  simp only [runSchedule_eq, List.append_assoc, List.cons_append, List.nil_append] at hs
  obtain ⟨t, ht, hplays, hte, hf, hirq, hts⟩ := steps_start_stream hI hi hr hp hl hs
  obtain ⟨u, hu, hplays, hte, hf, hirq, hus⟩ := hplays.steps_isrTe p hte hf hirq hts
  obtain ⟨v, hv, hend, hvs⟩ := hplays.steps_isrFpe q hte hirq hus
  have hsteps : steps (s.len + (p + 1 + (1 + q + 1))) s = .next v :=
    (steps_add ht).trans ((steps_add hu).trans hv)
  refine ⟨v, by rw [← hsteps]; congr 1; omega, ?_, hend.ready, hend.unstaged, hend.halted, hend.low, hend.noTe,
    hend.noFpe, hend.buf, hend.len, hvs, hend.responses⟩
  rw [hend.emitted, emitted_of_run hl, List.append_assoc]

/-! ### A run left alone -/

/-- The state with another schedule to come and another use of the free choices. -/
def State.reschedule (s : State) (ts : List Turn) (turns passed : Nat) : State :=
  { s with sched := ts, freeTurns := turns, passedOver := passed }

theorem State.reschedule_self {s : State} {turns passed : Nat} (hs : s.sched = []) (hturns : s.freeTurns = turns)
    (hpassed : s.passedOver = passed) : s.reschedule [] turns passed = s := by
  rw [State.reschedule, ← hs, ← hturns, ← hpassed]

/-- The machine takes from `s` the steps it takes with `ts` scheduled, and has used up `turns` free choices at their end. -/
def StepsAsScheduled (ts : List Turn) (turns : Nat) (s : State) : Prop :=
  steps ts.length s = steps ts.length (s.reschedule ts turns 0)

/-- Where the machine runs by itself the instruction that `ts` names first, and goes on as the rest of `ts` says, its steps are
those of `ts`. -/
theorem StepsAsScheduled.cons {i : Instr} {turn : Turn} {ts : List Turn} {turns f p : Nat} {s t : State}
    (hstep : step s = exec i (s.reschedule [] f p))
    (hnamed : step (s.reschedule (turn :: ts) turns 0) = exec i (s.reschedule ts turns 0))
    (hexec : ∀ us a b, exec i (s.reschedule us a b) = .next (t.reschedule us a b))
    (h : StepsAsScheduled ts turns (t.reschedule [] f p)) : StepsAsScheduled (turn :: ts) turns s := by
  have hs := steps_succ (k := ts.length) (hstep.trans (hexec _ _ _))
  have hsched := steps_succ (k := ts.length) (hnamed.trans (hexec _ _ _))
  exact hs.trans (Eq.trans h hsched.symm)

/-- A playing engine with nothing scheduled: its latches, its interrupt enable and its use of the free choices. -/
structure Alone (te fpe irq : Bool) (turns passed : Nat) (s : State) : Prop where
  unscheduled : s.sched = []
  running : s.timRunning = true
  te : s.tePending = te
  fpe : s.fpePending = fpe
  irq : s.timPeIrqEn = irq
  turns : s.freeTurns = turns
  passed : s.passedOver = passed

section

variable {te fpe irq : Bool} {F P turns : Nat} {s : State} {ts : List Turn}

/-- With no event pending the timer's period is the next step. -/
theorem Alone.step_period (h : Alone false false irq F P s) :
    step s = exec .periodElapsed (s.reschedule [] F P) := by
  have hfetch : fetchUnscheduled s = .run .periodElapsed s := by
    simp [fetchUnscheduled, pendingHandler, h.te, h.fpe, h.running]
  rw [step_unscheduled h.unscheduled, hfetch, State.reschedule_self h.unscheduled h.turns h.passed]

/-- The free choice lets a period go before the pending handler. -/
theorem Alone.step_passOver (h : Alone te fpe irq F P s) {i : Instr} (hi : pendingHandler s = some i)
    (hP : P < Config.freeTurn F) : step s = exec .periodElapsed (s.reschedule [] F (P + 1)) := by
  have hfetch : fetchUnscheduled s = .run .periodElapsed { s with passedOver := s.passedOver + 1 } := by
    simp [fetchUnscheduled, hi, h.running, h.turns, h.passed, hP]
  rw [step_unscheduled h.unscheduled, hfetch, State.reschedule, ← h.unscheduled, ← h.turns, ← h.passed]

/-- The free choice is used up and the pending handler runs. -/
theorem Alone.step_handler (h : Alone te fpe irq F P s) {i : Instr} (hi : pendingHandler s = some i)
    (hP : Config.freeTurn F ≤ P) : step s = exec i (s.reschedule [] (F + 1) 0) := by
  have hfetch : fetchUnscheduled s = .run i { s with passedOver := 0, freeTurns := s.freeTurns + 1 } := by
    simp [fetchUnscheduled, hi, h.turns, h.passed, Nat.not_lt.mpr hP]
  rw [step_unscheduled h.unscheduled, hfetch, State.reschedule, ← h.unscheduled, ← h.turns]

/-- A period that streams nothing keeps everything but FPE, which it raises where the interrupt is enabled. -/
theorem Alone.completePeriod (h : Alone te fpe irq F P s) (p : Nat) :
    Alone te (fpe || irq) irq F p (s.completePeriod.reschedule [] F p) where
  unscheduled := rfl
  running := h.running
  te := h.te
  fpe := by simp [State.reschedule, fpeRaisedByElapse, h.fpe, h.irq]
  irq := h.irq
  turns := rfl
  passed := rfl

/-- A period that streams a slot with the interrupt disabled raises TE where it leaves none. -/
theorem Alone.completePeriod_stream (h : Alone false false false F P s) {n : Nat} (hn : s.xfRem - 1 = n) (v : Slot) :
    Alone (teRaisedByStream n) false false F P ((s.completePeriod.stream v).reschedule [] F P) where
  unscheduled := rfl
  running := h.running
  te := by simp [State.reschedule, h.te, hn]
  fpe := by simp [State.reschedule, fpeRaisedByElapse, h.fpe, h.irq]
  irq := h.irq
  turns := rfl
  passed := rfl

/-- Left alone with no event pending and a slot left, the machine takes the period that streams it. -/
theorem Alone.stream_one (h : Alone false false false F P s) (hx : s.xfEn = true) (h0 : 0 < s.xfRem)
    (hsrc : s.xfSrc + s.xfRem ≤ maxPulses)
    (hnext : StepsAsScheduled ts turns ((s.completePeriod.stream (Memory.read s.buf s.xfSrc)).reschedule [] F P)) :
    StepsAsScheduled (tickTurn :: ts) turns s :=
  .cons (t := s.completePeriod.stream (Memory.read s.buf s.xfSrc)) h.step_period (step_tickTurn rfl)
    (fun us a b => exec_period_stream (s := s.reschedule us a b) h.running hx h0 (show s.xfSrc < maxPulses by omega))
    hnext

/-- Left alone with no event pending, the machine streams every slot left, one a period; the last raises TE. -/
theorem Alone.stream (hcont : ∀ t, Alone true false false F P t → t.xfRem = 0 → StepsAsScheduled ts turns t) {n : Nat}
    (h : Alone false false false F P s) (hx : s.xfEn = true) (hn : s.xfRem = n + 1)
    (hsrc : s.xfSrc + s.xfRem ≤ maxPulses) : StepsAsScheduled (List.replicate (n + 1) tickTurn ++ ts) turns s := by
  induction n generalizing s with
  | zero =>
    have hleft : s.xfRem - 1 = 0 := by omega
    exact h.stream_one hx (by omega) hsrc (hcont _ (h.completePeriod_stream hleft _) hleft)
  | succ n ih =>
    have hleft : s.xfRem - 1 = n + 1 := by omega
    exact h.stream_one hx (by omega) hsrc
      (ih (h.completePeriod_stream hleft _) hx hleft (show s.xfSrc + 1 + (s.xfRem - 1) ≤ maxPulses by omega))

/-- Left alone with a handler pending, the machine lets the periods of the free choice go first. -/
theorem Alone.wait {i : Instr} (hi : ∀ P t, Alone te fpe irq F P t → pendingHandler t = some i) (hirq : (fpe || irq) = fpe)
    (hcont : ∀ P t, Config.freeTurn F ≤ P → Alone te fpe irq F P t → t.xfRem = 0 → StepsAsScheduled ts turns t)
    {n : Nat} (hn : n = Config.freeTurn F - P) (h : Alone te fpe irq F P s) (h0 : s.xfRem = 0) :
    StepsAsScheduled (List.replicate n tickTurn ++ ts) turns s := by
  induction n generalizing s P with
  | zero => exact hcont P s (by omega) h h0
  | succ n ih =>
    have hnext := h.completePeriod (P + 1)
    rw [hirq] at hnext
    exact .cons (t := s.completePeriod) (h.step_passOver (hi P s h) (by omega)) (step_tickTurn rfl)
      (fun us a b => exec_period_repeat (s := s.reschedule us a b) h.running h0) (ih (by omega) hnext h0)

/-- Left alone with TE pending, the machine takes the periods of the free choice and then ISR_TE, which arms the interrupt. -/
theorem Alone.isrTe (hcont : ∀ t, Alone false false true (F + 1) 0 t → t.xfRem = 0 → StepsAsScheduled ts turns t)
    (h : Alone true false false F P s) (h0 : s.xfRem = 0) :
    StepsAsScheduled (List.replicate (Config.freeTurn F - P) tickTurn ++ isrTeTurn :: ts) turns s := by
  have hi : ∀ P t, Alone true false false F P t → pendingHandler t = some .isrTe := fun P t h => by
    simp [pendingHandler, h.te]
  refine h.wait hi rfl (fun P t hP h h0 => ?_) rfl h0
  exact .cons (t := t.ackTe.armPeriodIrq) (h.step_handler (hi P t h) hP) (step_isrTeTurn rfl)
    (fun us a b => exec_isrTe (s := t.reschedule us a b) h.te)
    (hcont _ ⟨rfl, h.running, rfl, h.fpe, rfl, rfl, rfl⟩ h0)

/-- Left alone with the interrupt armed, the machine takes the period that raises FPE, those of the free choice, and then
ISR_FPE. -/
theorem Alone.isrFpe (h : Alone false false true F 0 s) (h0 : s.xfRem = 0) :
    StepsAsScheduled (List.replicate (1 + Config.freeTurn F) tickTurn ++ [isrFpeTurn]) (F + 1) s := by
  have hi : ∀ P t, Alone false true true F P t → pendingHandler t = some .isrFpe := fun P t h => by
    simp [pendingHandler, h.te, h.fpe]
  rw [Nat.add_comm, List.replicate_succ, List.cons_append]
  refine .cons (t := s.completePeriod) h.step_period (step_tickTurn rfl)
    (fun us a b => exec_period_repeat (s := s.reschedule us a b) h.running h0)
    ((h.completePeriod 0).wait hi rfl (fun P t hP h h0 => ?_) rfl h0)
  exact .cons (t := t.ackFpe.haltEmission) (h.step_handler (hi P t h) hP) (step_isrFpeTurn rfl)
    (fun us a b => exec_isrFpe (s := t.reschedule us a b) h.fpe h.te) rfl

end

/-- With START alone scheduled the machine takes the steps of a run of R129: the free choices say how many periods go before
each handler. -/
theorem stepsAsScheduled_runSchedule {s : State} (hI : Inv s) (hi : s.initialised = true) (hr : s.state = .ready)
    (hp : s.pending = true) (hl : 2 ≤ s.len) (hs : s.sched = [hostTurn .start]) :
    ∃ p q, StepsAsScheduled (runSchedule s.len p q) (s.freeTurns + 2) s := by
  obtain ⟨-, -, ht, hf⟩ := hI.halted_of_ready hr
  have hlen : s.len ≤ maxPulses := hI.length
  obtain ⟨n, hn⟩ : ∃ n, s.len - 1 = n + 1 := ⟨s.len - 2, by omega⟩
  have halone : Alone false false false s.freeTurns s.passedOver
      ((s.launch.respond (statusResponse .ok)).reschedule [] s.freeTurns s.passedOver) :=
    ⟨rfl, rfl, by simp [State.reschedule, teRaisedByStart, ht, hn], hf, rfl, rfl, rfl⟩
  refine ⟨Config.freeTurn s.freeTurns - s.passedOver, Config.freeTurn (s.freeTurns + 1), ?_⟩
  rw [runSchedule_eq, hn]
  exact .cons (t := s.launch.respond (statusResponse .ok)) (step_hostTurn (.inl rfl) hs ht hf)
    (step_hostTurn (.inl rfl) rfl ht hf)
    (fun us a b => exec_start_run (s := s.reschedule us a b) ht hf hi hr hp (show s.len ≠ 0 by omega))
    (halone.stream (fun _ h h0 => h.isrTe (fun _ h h0 => h.isrFpe h0) h0) rfl hn
      (show 1 + (s.len - 1) ≤ maxPulses by omega))

/-- Settles O54: left alone the machine takes the steps of a run as scheduled (`stepsAsScheduled_runSchedule`), so it ends as
`runEmitsTheBufferThenLateCopies` says; there no agent has a step, and the machine waits. -/
theorem runLeftAloneEnds : Obligations.RunLeftAloneEnds := by
  intro s hI hi hr hp hl hs
  obtain ⟨p, q, halone⟩ := stepsAsScheduled_runSchedule hI hi hr hp hl hs
  rw [StepsAsScheduled, length_runSchedule (by omega)] at halone
  obtain ⟨t, ht, hem, hready, hunstaged, hhalted, hlow, hte, hf, hbuf, hlen, hsched, -⟩ :=
    runEmitsTheBufferThenLateCopies (s.reschedule (runSchedule s.len p q) (s.freeTurns + 2) 0) p q [] (hI.sameBut rfl)
      hi hr hp hl (List.append_nil _).symm
  have hwaits : step t = .next t := by
    rw [step_unscheduled hsched]
    simp [fetchUnscheduled, pendingHandler, hte, hf, hhalted]
  exact ⟨p, q, t, halone.trans ht, hem, hready, hunstaged, hhalted, hlow, hbuf, hlen, hwaits⟩

end Sys2Proof.Machine
end

section
/-! Which agent has a step (R156), what a handler's frame meets (R153), and the two handlers (R144, R145, R147, R150). -/

namespace Sys2Proof.Machine

/-! ### Enabling -/

theorem Instr.agent_of_isCommand {i : Instr} (hc : i.isCommand = true) : i.agent = .host := by
  simpa [Instr.isCommand] using hc

section

variable {i : Instr} {s : State}

/-- Every instruction is a step of its agent, with a meaning that is never refused for want of a step. -/
theorem exec_eq_asAgent (i : Instr) (s : State) :
    ∃ k, exec i s = asAgent i.agent s k ∧ ∀ a, k s ≠ .refused (.notEnabled a) := by
  cases i <;> simp only [exec, execInit, execSubmit, execStart, execStop, execStatus, execCapacity, execPeriodElapsed,
    execIsrTe, execIsrFpe, hostOp] <;> refine ⟨_, rfl, fun a h => ?_⟩
  all_goals
    repeat' split at h
    all_goals cases h

/-- Where its agent is not enabled, an instruction has no step (R156). -/
theorem exec_of_not_enabled (h : enabled i.agent s = false) : exec i s = .refused (.notEnabled i.agent) := by
  obtain ⟨k, hk, -⟩ := exec_eq_asAgent i s
  rw [hk, asAgent_of_not_enabled h]

/-- An instruction is refused for want of a step exactly where its agent is not enabled (R156, log 4). -/
theorem exec_notEnabled_iff : exec i s = .refused (.notEnabled i.agent) ↔ enabled i.agent s = false := by
  refine ⟨fun h => ?_, exec_of_not_enabled⟩
  obtain ⟨k, hk, hmeaning⟩ := exec_eq_asAgent i s
  rw [hk] at h
  obtain ⟨hen, -⟩ | ⟨-, h⟩ := asAgent_refused.mp h
  · exact hen
  · exact absurd h (hmeaning _)

/-- HOST is not enabled exactly while an event is pending (R150). -/
theorem not_enabled_host : enabled .host s = false ↔ s.tePending = true ∨ s.fpePending = true := by
  rw [← Bool.not_eq_true, enabled_host]
  cases s.tePending <;> cases s.fpePending <;> simp

theorem not_enabled_isrFpe : enabled .isrFpe s = false ↔ s.fpePending = false ∨ s.tePending = true := by
  cases h : s.fpePending <;> simp [enabled, h]

end

/-- Settles O5: the refusal is that of the enabling (`exec_notEnabled_iff`), agent by agent R156's table. -/
theorem agentsHaveStepsExactlyWhereEnabled : Obligations.AgentsHaveStepsExactlyWhereEnabled := by
  intro i s
  rw [exec_notEnabled_iff]
  cases i.agent with
  | host => exact not_enabled_host
  | timer => exact Iff.rfl
  | isrTe => exact Iff.rfl
  | isrFpe => exact not_enabled_isrFpe

/-- Settles O3: with an event pending fetching finds its handler, in the same state, where HOST's entry is next; HOST and, while TE
is pending, ISR_FPE are not enabled. -/
theorem pendingHandlerRunsBeforeHost : Obligations.PendingHandlerRunsBeforeHost := by
  intro s
  refine ⟨fun ctx frame rest hs => ⟨fun ht => ?_, fun ht hf => ?_⟩, fun i hc hpend => ?_, fun ht => ?_⟩
  · simp [step, fetch, hs, pendingHandler, ht]
  · simp [step, fetch, hs, pendingHandler, ht, hf]
  · have hhost := Instr.agent_of_isCommand hc
    have hen : enabled i.agent s = false := hhost ▸ not_enabled_host.mpr hpend
    rw [exec_of_not_enabled hen, hhost]
  · exact exec_of_not_enabled (not_enabled_isrFpe.mpr (.inr ht))

/-- Settles O10: the frame decodes to its operation (`decodeGivesBackTheEncoded`), and fetching refuses it for its context. -/
theorem frameFromAHandlerIsRefused : Obligations.FrameFromAHandlerIsRefused := by
  intro s i rest hw hc hs ht hf
  have hd : decode (encode i) = .ok (i, []) := by simpa using decodeGivesBackTheEncoded i [] hw
  have hfetch : fetch s = .refuse .wrongContext := by simp [fetch_host hs ht hf, fetchHost, hd, hc]
  simp only [step, hfetch]

/-- Settles O4: what fetching finds where the schedule is silent (`fetchUnscheduled_cases`) is the step of a running timer or of the
pending handler (`pendingHandler_some`), in a state that differs in the two counters. -/
theorem unscheduledStepIsAnEnabledAgents : Obligations.UnscheduledStepIsAnEnabledAgents := by
  intro s hs
  rw [step_unscheduled hs]
  obtain ⟨_, -, hr, -, e⟩ | ⟨i, hp, -, e⟩ | ⟨-, hr, e⟩ | ⟨hp, hr, e⟩ := fetchUnscheduled_cases s <;> rw [e]
  · exact ⟨fun ⟨hn, _⟩ => by simp [hr] at hn, fun _ => ⟨.periodElapsed, s.freeTurns, _, .inl ⟨rfl, hr⟩, rfl⟩⟩
  · have hi := pendingHandler_some hp
    refine ⟨fun ⟨_, hnone⟩ => ?_, fun _ => ⟨i, _, _, .inr hi, rfl⟩⟩
    simp [pendingHandler_none.mpr hnone] at hp
  · exact ⟨fun ⟨hn, _⟩ => by simp [hr] at hn, fun _ => ⟨.periodElapsed, s.freeTurns, s.passedOver, .inl ⟨rfl, hr⟩, rfl⟩⟩
  · obtain ⟨ht, hf⟩ := pendingHandler_none.mp hp
    exact ⟨fun _ => rfl, fun hsome => by simp [hr, ht, hf] at hsome⟩

/-! ### The two handlers -/

/-- Settles O28: the handler's two writes are those of `State.ackTe` and `State.armPeriodIrq`. -/
theorem isrTeResult : Obligations.IsrTeResult :=
  fun _ => ⟨⟨fun ⟨_, h⟩ => (execIsrTe_cases h).1, fun ht => ⟨_, exec_isrTe ht⟩⟩, exec_isrTe⟩

/-- Settles O29: the handler's four writes are those of `State.ackFpe` and `State.haltEmission`. -/
theorem isrFpeResult : Obligations.IsrFpeResult :=
  fun _ => ⟨⟨fun ⟨_, h⟩ => (execIsrFpe_cases h).1, fun ⟨hf, ht⟩ => ⟨_, exec_isrFpe hf ht⟩⟩, exec_isrFpe⟩

/-- Settles O38: each handler's writes field by field. -/
theorem handlerFrame : Obligations.HandlerFrame := by
  rintro i s t (rfl | rfl) h
  · obtain ⟨-, rfl⟩ := execIsrTe_cases h
    simp
  · obtain ⟨-, rfl⟩ := execIsrFpe_cases h
    simp

end Sys2Proof.Machine
end

section
/-! Rejections (R136, R137, R154, R155) and the one fault (R139). -/

namespace Sys2Proof.Machine

/-! ### Rejections -/

/-- A SUBMIT or a START only answers a word, or is accepted with Ok. -/
theorem exec_submit_start_answer {i : Instr} {s t : State} (hi : i = .start ∨ ∃ segs, i = .submit segs)
    (h : exec i s = .next t) : (∃ w, t = s.respond w) ∨ t.responses = s.responses ++ [0x00000000] := by
  obtain rfl | ⟨segs, rfl⟩ := hi
  · obtain ⟨-, ⟨-, e⟩ | ⟨-, -, e⟩ | ⟨-, -, -, rfl⟩⟩ := execStart_cases h
    · exact .inl ⟨_, e⟩
    · exact .inl ⟨_, e⟩
    · exact .inr rfl
  · obtain ⟨-, ⟨-, e⟩ | ⟨-, -, e⟩ | ⟨-, -, rfl⟩⟩ := execSubmit_cases h
    · exact .inl ⟨_, e⟩
    · exact .inl ⟨_, e⟩
    · exact .inr rfl

/-- Settles O35: the word Busy or Overflow is not that of the accepted operation, and without acceptance the word is all that is
written (`exec_submit_start_answer`). -/
theorem rejectionsWriteNothing : Obligations.RejectionsWriteNothing := by
  intro i s t w hi h hresp hw
  obtain ⟨v, rfl⟩ | hok := exec_submit_start_answer hi h
  · rw [← hresp]
    rfl
  · obtain rfl : w = 0x00000000 := by simpa [hresp] using hok
    simp at hw

/-- Settles O37: each answer of SUBMIT and of START with the case it is given in; no two answers are the same word. -/
theorem rejectionsExactlyWhen : Obligations.RejectionsExactlyWhen := by
  refine ⟨fun s t segs h => ?_, fun s t h => ?_⟩
  · rw [← totalCount_eq_sum, show 2560 = maxPulses from rfl]
    obtain ⟨-, ⟨hs, rfl⟩ | ⟨hs, hl, rfl⟩ | ⟨hs, hl, rfl⟩⟩ := execSubmit_cases h
    · simp [hs]
    · simp [hs, hl]
    · simp [hs, hl]
  · obtain ⟨-, ⟨hs, rfl⟩ | ⟨hs, hp, rfl⟩ | ⟨hs, hp, -, rfl⟩⟩ := execStart_cases h <;> simp [hs]
    all_goals simp [hp]

/-! ### The one fault -/

/-- Only START faults: with no event pending, INIT run, the engine Ready and an empty buffer staged. -/
theorem exec_fault {i : Instr} {s : State} {f : Fault} (h : exec i s = .fault f) :
    i = .start ∧ (s.tePending = false ∧ s.fpePending = false) ∧ s.initialised = true ∧ s.state = .ready ∧
      s.pending = true ∧ s.len = 0 := by
  cases i <;> simp only [exec] at h
  case start =>
    obtain ⟨hevents, hi, h⟩ := hostOp_fault.mp h
    split at h
    · cases h
    · split_ifs at h with hp hl
      exact ⟨rfl, hevents, hi, ‹_›, hp, hl⟩
  case submit segs =>
    obtain ⟨-, -, h⟩ := hostOp_fault.mp h
    split at h
    · cases h
    · split at h <;> cases h
  case stop | status | capacity =>
    obtain ⟨-, -, h⟩ := hostOp_fault.mp h
    cases h
  case init | periodElapsed =>
    obtain ⟨-, h⟩ := asAgent_fault.mp h
    split_ifs at h
  case isrTe | isrFpe =>
    obtain ⟨-, h⟩ := asAgent_fault.mp h
    cases h

/-- A run whose first step faults answers that fault. -/
theorem steps_succ_of_fault {s : State} {f : Fault} (h : step s = .fault f) (k : Nat) : steps (k + 1) s = .fault f := by
  simp only [steps, h]

/-- Settles O45: START's fault and its guards (`exec_fault`, `exec_start_empty`); a run composes (`steps_add`), and after the
steps that answer comes the one that faults. -/
theorem startEmptyBufferIsTheOneFault : Obligations.StartEmptyBufferIsTheOneFault := by
  refine ⟨fun i s f => ⟨fun h => ?_, ?_⟩, fun s t f a b hsteps hfault => ?_⟩
  · obtain ⟨hi, ⟨ht, hf⟩, hguards⟩ := exec_fault h
    exact ⟨rfl, hi, ht, hf, hguards⟩
  · rintro ⟨rfl, rfl, ht, hf, hi, hs, hp, hl⟩
    exact exec_start_empty ht hf hi hs hp hl
  · rw [Nat.add_assoc, steps_add hsteps, Nat.add_comm, steps_succ_of_fault hfault]

/-- Settles O46: START alone faults (`exec_fault`); a slot left in a run of the invariant has its index below `len`, so within the
buffer (R37 items 1 and 4). -/
theorem invariantRulesOutOtherFaults : Obligations.InvariantRulesOutOtherFaults := by
  refine fun i s hI => ⟨fun f h => ?_, fun h => ?_⟩
  · obtain ⟨hi, -, -, -, hp, hl⟩ := exec_fault h
    exact ⟨rfl, hi, hp, hl⟩
  · obtain ⟨hr, h0, hsrc⟩ := exec_noSuchSlot h
    obtain ⟨-, -, hpos⟩ := hI.position (hI.busy_iff_running.mpr hr)
    have hlen := hI.length
    omega

end Sys2Proof.Machine
end

section
/-! The work a run has left (R157) and quiescence (R158). -/

namespace Sys2Proof.Machine

/-! ### Quiescence -/

/-- Settles O47: in a state of the invariant the timer runs exactly while the engine is Busy (R37 item 3). -/
theorem quiescentIsReadyWithNoHandlerPending : Obligations.QuiescentIsReadyWithNoHandlerPending := by
  intro s hI
  have hhalted : s.timRunning = false ↔ s.state = .ready := by
    rw [← Bool.not_eq_true, ← hI.busy_iff_running]
    cases s.state <;> simp
  rw [Quiescent, hhalted]

/-! ### The work left -/

section

variable {s : State}

theorem workLeft_ready (hs : s.state = .ready) : workLeft s = 0 := by simp [workLeft, hs]

theorem workLeft_busy (hb : s.state = .busy) :
    workLeft s = if s.fpePending then 1 else if s.timPeIrqEn then 2 else s.xfRem + 3 := by simp [workLeft, hb]

/-- While a slot is left to stream the interrupt is disabled and FPE is not pending (R25). -/
theorem Inv.streaming (hI : Inv s) (hb : s.state = .busy) (h0 : 0 < s.xfRem) :
    s.timPeIrqEn = false ∧ s.fpePending = false := by
  refine ⟨Bool.eq_false_iff.mpr fun h => ?_, Bool.eq_false_iff.mpr fun h => ?_⟩
  · have := hI.armed hb h
    omega
  · obtain ⟨-, hrem, -⟩ := hI.fpe h
    omega

/-- A period that streams a slot leaves one slot less. -/
theorem Inv.workLeft_stream (hI : Inv s) (hb : s.state = .busy) (h0 : 0 < s.xfRem) (v : Slot) :
    workLeft (s.completePeriod.stream v) < workLeft s := by
  obtain ⟨hirq, hf⟩ := hI.streaming hb h0
  rw [workLeft_busy hb, workLeft_busy (s := s.completePeriod.stream v) hb]
  simp [hf, hirq, fpeRaisedByElapse, h0]

/-- A period that streams nothing takes from the work left exactly where it raises FPE. -/
theorem workLeft_completePeriod (hb : s.state = .busy) :
    workLeft s.completePeriod = if s.timPeIrqEn = true then 1 else workLeft s := by
  rw [workLeft_busy hb, workLeft_busy (s := s.completePeriod) hb]
  cases hirq : s.timPeIrqEn <;> simp [hirq, fpeRaisedByElapse]

/-- ISR_TE arms the interrupt: a period and ISR_FPE are left. -/
theorem Inv.workLeft_isrTe (hI : Inv s) (ht : s.tePending = true) : workLeft s.ackTe.armPeriodIrq < workLeft s := by
  obtain ⟨hb, h0, hirq, hf⟩ := hI.te ht
  rw [workLeft_busy hb, workLeft_busy (s := s.ackTe.armPeriodIrq) hb]
  simp [hf, hirq]

/-- ISR_FPE is the last step of a run. -/
theorem Inv.workLeft_isrFpe (hI : Inv s) (hf : s.fpePending = true) : workLeft s.ackFpe.haltEmission < workLeft s := by
  obtain ⟨hb, -⟩ := hI.fpe hf
  rw [workLeft_busy hb, workLeft_ready (s := s.ackFpe.haltEmission) rfl, if_pos hf]
  exact Nat.one_pos

end

/-- Settles O51: the measure falls at a streamed slot (`Inv.workLeft_stream`) and at each handler, and a period that streams nothing
leaves it or raises FPE (`workLeft_completePeriod`). -/
theorem internalStepsUseUpTheWorkLeft : Obligations.InternalStepsUseUpTheWorkLeft := by
  intro i s t hI hc h
  cases i with
  | init | submit | start | stop | status | capacity => cases hc
  | periodElapsed =>
    obtain ⟨hr, hcase⟩ := execPeriodElapsed_cases h
    have hb := hI.busy_iff_running.mpr hr
    obtain ⟨-, h0, -, rfl⟩ | ⟨hx, rfl⟩ := hcase
    · have hlt := hI.workLeft_stream hb h0 (Memory.read s.buf s.xfSrc)
      exact ⟨hlt.le, fun _ => hlt⟩
    · have h0 : s.xfRem = 0 := hx.resolve_left (by simp [(hI.position hb).1])
      rw [workLeft_completePeriod hb, workLeft_busy hb]
      cases hirq : s.timPeIrqEn <;> cases hf : s.fpePending <;> simp [h0]
  | isrTe =>
    obtain ⟨ht, rfl⟩ := execIsrTe_cases h
    have hlt := hI.workLeft_isrTe ht
    exact ⟨hlt.le, fun _ => hlt⟩
  | isrFpe =>
    obtain ⟨⟨hf, -⟩, rfl⟩ := execIsrFpe_cases h
    have hlt := hI.workLeft_isrFpe hf
    exact ⟨hlt.le, fun _ => hlt⟩

end Sys2Proof.Machine
end

section
/-! Every infinite run of the machine is a run of the agents, and fair (R156, R157, log 2): while an agent stays enabled, each step
is that agent's or uses up the schedule, the free choice or the pending event that stands before it. -/

namespace Sys2Proof.Machine

/-! ### Whose step comes next -/

/-- The instruction the machine runs next; none where it waits. -/
def nextInstr (s : State) : Option Instr :=
  match fetch s with
  | .run i _ => some i
  | .idle => none
  | .refuse _ => none

section

variable {s s' t : State} {i : Instr}

theorem nextInstr_of_fetch (h : fetch s = .run i s') : nextInstr s = some i := by simp [nextInstr, h]

theorem fetch_of_nextInstr (h : nextInstr s = some i) : ∃ s', fetch s = .run i s' := by
  cases hf : fetch s with
  | run j s' =>
    obtain rfl : j = i := by simpa [nextInstr, hf] using h
    exact ⟨s', rfl⟩
  | idle => simp [nextInstr, hf] at h
  | refuse r => simp [nextInstr, hf] at h

theorem step_of_fetch (h : fetch s = .run i s') : step s = exec i s' := by simp only [step, h]

/-- An entry of the schedule never leaves the machine waiting. -/
theorem fetchHost_ne_idle {ctx : Context} {frame : List Word} {rest : List Turn} : fetchHost ctx frame rest s ≠ .idle := by
  unfold fetchHost
  repeat' split
  all_goals exact nofun

theorem fetchInternal_ne_idle {label : Word} {rest : List Turn} : fetchInternal label rest s ≠ .idle := by
  unfold fetchInternal
  repeat' split
  all_goals exact nofun

/-- The machine waits only where no agent but HOST is enabled. -/
theorem halted_of_fetch_idle (h : fetch s = .idle) : s.timRunning = false ∧ pendingHandler s = none := by
  unfold fetch at h
  split at h
  · obtain ⟨_, -, -, -, e⟩ | ⟨_, -, -, e⟩ | ⟨-, -, e⟩ | ⟨hp, hr, -⟩ := fetchUnscheduled_cases s
    · simp [e] at h
    · simp [e] at h
    · simp [e] at h
    · exact ⟨hr, hp⟩
  · split at h
    · cases h
    · exact absurd h fetchHost_ne_idle
  · exact absurd h fetchInternal_ne_idle

/-- A step that answers waited, with no agent enabled but HOST, or ran what was fetched. -/
theorem step_cases (h : step s = .next t) :
    (t = s ∧ s.timRunning = false ∧ pendingHandler s = none) ∨ ∃ i s', fetch s = .run i s' ∧ exec i s' = .next t := by
  cases hf : fetch s with
  | run i s' => exact .inr ⟨i, s', rfl, step_of_fetch hf ▸ h⟩
  | refuse r => simp [step, hf] at h
  | idle => exact .inl ⟨by simpa [step, hf, eq_comm] using h, halted_of_fetch_idle hf⟩

end

/-- The agents' steps the machine takes make its run one of the agents. -/
theorem isRun_nextInstr {σ : Nat → State} (hσ : ∀ n, step (σ n) = .next (σ (n + 1))) :
    IsRun σ (fun n => nextInstr (σ n)) where
  acts n i h := by
    obtain ⟨s', hf⟩ := fetch_of_nextInstr h
    exact ⟨s', fetch_run hf, step_of_fetch hf ▸ hσ n⟩
  waits n h := by
    obtain ⟨e, -⟩ | ⟨i, s', hf, -⟩ := step_cases (hσ n)
    · rw [e]
      rfl
    · simp [nextInstr_of_fetch hf] at h

/-! ### How much schedule is left -/

/-- The words of an entry of the schedule and the entry itself. -/
def turnSize : Turn → Nat
  | .host _ frame => frame.length + 1
  | .internal _ => 1

/-- How much of the schedule is left to read. -/
def scheduleSize (turns : List Turn) : Nat := (turns.map turnSize).sum

theorem scheduleSize_cons (turn : Turn) (turns : List Turn) :
    scheduleSize (turn :: turns) = turnSize turn + scheduleSize turns := by simp [scheduleSize]

/-- A frame that decodes is used up but for the words left over. -/
theorem scheduleSize_requeue {ctx : Context} {frame left : List Word} {i : Instr} (hd : decode frame = .ok (i, left))
    (rest : List Turn) : scheduleSize (requeue ctx left rest) < scheduleSize (.host ctx frame :: rest) := by
  obtain ⟨-, rfl⟩ := encodeGivesBackTheDecoded _ _ _ hd
  have hpos : 0 < (encode i).length := by cases i <;> exact Nat.succ_pos _
  rw [requeue_eq, scheduleSize_cons]
  split_ifs <;> simp only [scheduleSize_cons, turnSize, List.length_append] <;> omega

/-- What fetching reads: a pending handler is fetched without reading; a period too, where the schedule is silent, and before a
pending handler only by the free choice; anything else uses up the schedule. -/
theorem fetch_reads {s s' : State} {i : Instr} (h : fetch s = .run i s') :
    (pendingHandler s = some i ∧ s'.sched = s.sched) ∨
    (i = .periodElapsed ∧ s'.sched = s.sched ∧ s'.freeTurns = s.freeTurns ∧
      (pendingHandler s ≠ none → s.passedOver < Config.freeTurn s.freeTurns ∧ s'.passedOver = s.passedOver + 1)) ∨
    (scheduleSize s'.sched < scheduleSize s.sched ∧ s'.freeTurns = s.freeTurns ∧ s'.passedOver = s.passedOver) := by
  obtain ⟨-, h⟩ | ⟨_, _, _, -, hp, rfl⟩ | ⟨_, rest, _, hs, -, -, hd, rfl⟩ | ⟨_, rest, _, hs, -, -, rfl⟩ := fetch_cases h
  · obtain ⟨_, -, -, hlt, e⟩ | ⟨_, hp, -, e⟩ | ⟨hp, -, e⟩ | ⟨-, -, e⟩ := fetchUnscheduled_cases s <;> rw [e] at h
    · obtain ⟨rfl, rfl⟩ := Fetched.run.inj h
      exact .inr (.inl ⟨rfl, rfl, rfl, fun _ => ⟨hlt, rfl⟩⟩)
    · obtain ⟨rfl, rfl⟩ := Fetched.run.inj h
      exact .inl ⟨hp, rfl⟩
    · obtain ⟨rfl, rfl⟩ := Fetched.run.inj h
      exact .inr (.inl ⟨rfl, rfl, rfl, fun hn => absurd hp hn⟩)
    · cases h
  · exact .inl ⟨hp, rfl⟩
  · exact .inr (.inr ⟨hs ▸ scheduleSize_requeue hd rest, rfl, rfl⟩)
  · refine .inr (.inr ⟨?_, rfl, rfl⟩)
    rw [hs, scheduleSize_cons]
    exact Nat.lt_add_of_pos_left Nat.one_pos

/-! ### No enabled agent is passed over for ever -/

/-- How many steps at most go before a handler that stays pending: the schedule, then the periods of the free choice. -/
def handlerWait (s : State) : Nat := scheduleSize s.sched + (Config.freeTurn s.freeTurns - s.passedOver)

/-- A bound on the steps that go before a period of a timer that keeps running: the schedule, and ISR_TE. -/
def timerWait (s : State) : Nat := 2 * scheduleSize s.sched + s.tePending.toNat

section

variable {s t : State}

/-- With a handler pending, each step is the handler's or brings it nearer. -/
theorem step_pendingHandler {i : Instr} (hi : pendingHandler s = some i) (h : step s = .next t) :
    nextInstr s = some i ∨ handlerWait t < handlerWait s := by
  obtain ⟨-, -, hnone⟩ | ⟨j, s', hfetch, hexec⟩ := step_cases h
  · simp [hi] at hnone
  obtain ⟨hs, hf, hp⟩ := exec_model_fields hexec
  rw [handlerWait, handlerWait, hs, hf, hp]
  obtain ⟨hj, -⟩ | ⟨-, hs, hf, hpass⟩ | ⟨hs, hf, hp⟩ := fetch_reads hfetch
  · exact .inl ((nextInstr_of_fetch hfetch).trans (hj.symm.trans hi))
  · obtain ⟨hlt, hp⟩ := hpass (by simp [hi])
    rw [hs, hf, hp]
    omega
  · rw [hf, hp]
    omega

/-- While the timer keeps running, each step is a period or brings the next period nearer: ISR_TE acknowledges its event, and
ISR_FPE would halt the timer. -/
theorem step_timRunning (hr : s.timRunning = true) (h : step s = .next t) (hrt : t.timRunning = true) :
    nextInstr s = some .periodElapsed ∨ timerWait t < timerWait s := by
  obtain ⟨-, hhalted, -⟩ | ⟨i, s', hfetch, hexec⟩ := step_cases h
  · simp [hr] at hhalted
  obtain ⟨hsched, -, -⟩ := exec_model_fields hexec
  obtain ⟨hi, hs⟩ | ⟨rfl, -⟩ | ⟨hlt, -⟩ := fetch_reads hfetch
  · obtain ⟨rfl, ht⟩ | ⟨rfl, -⟩ := pendingHandler_some hi
    · obtain ⟨-, rfl⟩ := execIsrTe_cases hexec
      right
      simp [timerWait, hs, ht]
    · obtain ⟨-, rfl⟩ := execIsrFpe_cases hexec
      simp at hrt
  · exact .inl (nextInstr_of_fetch hfetch)
  · have hte := t.tePending.toNat_le
    rw [timerWait, timerWait, hsched]
    omega

end

/-- A measure cannot fall for ever: from any position on there is one where it does not fall. -/
theorem exists_of_measure_falls_else {P : Nat → Prop} (f : Nat → Nat) (n : Nat)
    (h : ∀ m, n ≤ m → P m ∨ f (m + 1) < f m) : ∃ m, n ≤ m ∧ P m := by
  have hmin := Function.not_lt_argmin (fun k => f (n + k)) (Function.argmin (fun k => f (n + k)) + 1)
  exact ⟨_, Nat.le_add_right n _, (h _ (Nat.le_add_right n _)).resolve_right hmin⟩

/-- A handler that stays pending runs. -/
theorem exists_step_of_pendingHandler {σ : Nat → State} (hσ : ∀ n, step (σ n) = .next (σ (n + 1))) {i : Instr} {n : Nat}
    (hi : ∀ m, n ≤ m → pendingHandler (σ m) = some i) : ∃ m, n ≤ m ∧ nextInstr (σ m) = some i :=
  exists_of_measure_falls_else (fun m => handlerWait (σ m)) n fun m hm => step_pendingHandler (hi m hm) (hσ m)

/-- Settles O53: the run of the agents is that of the instructions fetched (`isRun_nextInstr`), and an agent that stays enabled has
its step by the measure of what goes before it (`step_timRunning`, `step_pendingHandler`). -/
theorem everyRunOfTheMachineIsFair : Obligations.EveryRunOfTheMachineIsFair := by
  refine fun σ hσ => ⟨fun n => nextInstr (σ n), isRun_nextInstr hσ, fun a n ha hen => ?_⟩
  cases a with
  | host => exact absurd rfl ha
  | timer =>
    obtain ⟨m, hm, hi⟩ := exists_of_measure_falls_else (fun m => timerWait (σ m)) n fun m hm =>
      step_timRunning (hen m hm) (hσ m) (hen (m + 1) (by omega))
    exact ⟨m, _, hm, hi, rfl⟩
  | isrTe =>
    obtain ⟨m, hm, hi⟩ := exists_step_of_pendingHandler (i := .isrTe) hσ fun m hm => if_pos (hen m hm)
    exact ⟨m, _, hm, hi, rfl⟩
  | isrFpe =>
    obtain ⟨m, hm, hi⟩ := exists_step_of_pendingHandler (i := .isrFpe) (n := n) hσ fun m hm => by
      obtain ⟨hf, ht⟩ : (σ m).fpePending = true ∧ (σ m).tePending = false := by simpa [enabled] using hen m hm
      simp [pendingHandler, hf, ht]
    exact ⟨m, _, hm, hi, rfl⟩

end Sys2Proof.Machine
end

section
/-! Under fairness a run with no further step of HOST ends, unless its one slot raises no event (R108, R157). -/

namespace Sys2Proof.Machine

/-! ### Invariants of a run of the agents -/

/-- What START leaves and each internal step keeps holds all along a run with no further step of HOST. -/
theorem IsRun.induction {σ : Nat → State} {who : Nat → Option Instr} {P : State → Prop} (hrun : IsRun σ who)
    (hhost : ∀ n i, who n = some i → i.isCommand = false) (h0 : P (σ 0)) (hsame : ∀ s s', SameBut s s' → P s → P s')
    (hexec : ∀ i s t, i.isCommand = false → exec i s = .next t → P s → P t) (n : Nat) : P (σ n) := by
  induction n with
  | zero => exact h0
  | succ n ih =>
    cases hw : who n with
    | none => exact hsame _ _ (hrun.waits n hw) ih
    | some i =>
      obtain ⟨s', hs', he⟩ := hrun.acts n i hw
      exact hexec i s' _ (hhost n i hw) he (hsame _ _ hs' ih)

/-- The run has an event to come: a slot left to stream, TE pending, or the interrupt armed. -/
def EventAhead (s : State) : Prop := 0 < s.xfRem ∨ s.tePending = true ∨ s.timPeIrqEn = true

/-- A run of one slot that raises no event (R108, `never`). -/
structure Endless (s : State) : Prop where
  busy : s.state = .busy
  remaining : s.xfRem = 0
  noTe : s.tePending = false
  noFpe : s.fpePending = false
  unarmed : s.timPeIrqEn = false

section

variable {s s' t : State} {i : Instr}

theorem SameBut.workLeft_eq (h : SameBut s s') : workLeft s' = workLeft s := by
  rw [h]
  rfl

theorem EventAhead.sameBut (h : SameBut s s') (he : EventAhead s) : EventAhead s' := by
  rw [h]
  exact he

theorem Endless.sameBut (h : SameBut s s') (he : Endless s) : Endless s' := by
  rw [h]
  exact ⟨he.busy, he.remaining, he.noTe, he.noFpe, he.unarmed⟩

/-- The period that streams the last slot raises TE (R126), and ISR_TE arms the interrupt (R144). -/
theorem EventAhead.exec (hc : i.isCommand = false) (h : exec i s = .next t) (he : EventAhead s) : EventAhead t := by
  cases i with
  | init | submit | start | stop | status | capacity => cases hc
  | periodElapsed =>
    obtain ⟨-, ⟨-, h0, -, rfl⟩ | ⟨-, rfl⟩⟩ := execPeriodElapsed_cases h
    · rcases Nat.eq_zero_or_pos (s.xfRem - 1) with hlast | hmore
      · exact .inr (.inl (by simp [teRaisedByStream, hlast]))
      · exact .inl hmore
    · exact he
  | isrTe =>
    obtain ⟨-, rfl⟩ := execIsrTe_cases h
    exact .inr (.inr rfl)
  | isrFpe =>
    obtain ⟨-, rfl⟩ := execIsrFpe_cases h
    exact he

/-- With no event and nothing to stream, no handler has a step and a period only repeats the value. -/
theorem Endless.exec (hc : i.isCommand = false) (h : exec i s = .next t) (he : Endless s) : Endless t := by
  cases i with
  | init | submit | start | stop | status | capacity => cases hc
  | periodElapsed =>
    obtain ⟨-, ⟨-, h0, -, -⟩ | ⟨-, rfl⟩⟩ := execPeriodElapsed_cases h
    · simp [he.remaining] at h0
    · exact { he with noFpe := by simp [he.noFpe, he.unarmed, fpeRaisedByElapse] }
  | isrTe =>
    obtain ⟨ht, -⟩ := execIsrTe_cases h
    simp [he.noTe] at ht
  | isrFpe =>
    obtain ⟨⟨hf, -⟩, -⟩ := execIsrFpe_cases h
    simp [he.noFpe] at hf

/-- A START of a staged buffer while Ready that answers begins the run. -/
theorem exec_start_staged (hs : s.state = .ready) (hp : s.pending = true) (h : Machine.exec .start s = .next t) :
    (s.tePending = false ∧ s.fpePending = false) ∧ s.len ≠ 0 ∧ t = s.launch.respond (statusResponse .ok) := by
  obtain ⟨⟨hev, -⟩, ⟨hb, -⟩ | ⟨-, hu, -⟩ | ⟨-, -, hl, e⟩⟩ := execStart_cases h
  · simp [hs] at hb
  · simp [hp] at hu
  · exact ⟨hev, hl, e⟩

end

/-! ### The step a run waits for -/

/-- The internal step that uses up work, by the work left: ISR_FPE at 1, ISR_TE at 3, at any other a period. -/
def drivingStep : Nat → Instr
  | 1 => .isrFpe
  | 3 => .isrTe
  | _ => .periodElapsed

theorem isCommand_drivingStep (n : Nat) : (drivingStep n).isCommand = false := by
  unfold drivingStep
  split <;> rfl

/-- An internal agent has one instruction (R156). -/
theorem Instr.eq_of_agent_eq {i j : Instr} (hj : j.isCommand = false) (h : i.agent = j.agent) : i = j := by
  cases j <;> cases hj <;> cases i <;> cases h <;> rfl

section

variable {s : State} (hI : Inv s) (hb : s.state = .busy) (he : EventAhead s)

include hI hb he

/-- Which step is the driving one in a busy state with an event ahead. -/
theorem Inv.drivingStep_cases :
    (drivingStep (workLeft s) = .isrFpe ∧ s.fpePending = true ∧ s.tePending = false) ∨
    (drivingStep (workLeft s) = .isrTe ∧ s.tePending = true) ∨
    (drivingStep (workLeft s) = .periodElapsed ∧ (0 < s.xfRem ∨ (s.timPeIrqEn = true ∧ s.fpePending = false))) := by
  have hw := workLeft_busy hb
  cases hf : s.fpePending with
  | true =>
    refine .inl ⟨by simp [hw, hf, drivingStep], rfl, Bool.eq_false_iff.mpr fun h => ?_⟩
    obtain ⟨-, -, -, hnf⟩ := hI.te h
    simp [hf] at hnf
  | false =>
    cases hirq : s.timPeIrqEn with
    | true => exact .inr (.inr ⟨by simp [hw, hf, hirq, drivingStep], .inr ⟨rfl, rfl⟩⟩)
    | false =>
      cases h0 : s.xfRem with
      | zero =>
        have ht : s.tePending = true := by simpa [EventAhead, h0, hirq] using he
        exact .inr (.inl ⟨by simp [hw, hf, hirq, h0, drivingStep], ht⟩)
      | succ n => exact .inr (.inr ⟨by simp [hw, hf, hirq, h0, drivingStep], .inl (Nat.succ_pos n)⟩)

theorem Inv.enabled_drivingStep : enabled (drivingStep (workLeft s)).agent s = true := by
  obtain ⟨e, hf, ht⟩ | ⟨e, ht⟩ | ⟨e, -⟩ := hI.drivingStep_cases hb he <;> rw [e]
  · simp [Instr.agent, enabled, hf, ht]
  · exact ht
  · exact hI.busy_iff_running.mp hb

theorem Inv.workLeft_drivingStep {t : State} (h : Machine.exec (drivingStep (workLeft s)) s = .next t) :
    workLeft t < workLeft s := by
  refine (internalStepsUseUpTheWorkLeft _ s t hI (isCommand_drivingStep _) h).2 ?_
  obtain ⟨e, -⟩ | ⟨e, -⟩ | ⟨-, hrest⟩ := hI.drivingStep_cases hb he
  · exact .inr (.inl e)
  · exact .inl e
  · exact .inr (.inr hrest)

end

/-! ### Fair runs -/

/-- The work left never grows along a run with no further step of HOST. -/
theorem IsRun.antitone_workLeft {σ : Nat → State} {who : Nat → Option Instr} (hrun : IsRun σ who)
    (hhost : ∀ n i, who n = some i → i.isCommand = false) (hI : ∀ n, Inv (σ n)) : Antitone fun n => workLeft (σ n) := by
  refine antitone_nat_of_succ_le fun n => ?_
  cases hw : who n with
  | none => exact (hrun.waits n hw).workLeft_eq.le
  | some i =>
    obtain ⟨s', hs', h⟩ := hrun.acts n i hw
    rw [← hs'.workLeft_eq]
    exact (internalStepsUseUpTheWorkLeft i s' _ ((hI n).sameBut hs') (hhost n i hw) h).1

/-- A fair run with an event ahead of each of its states reaches Ready: where the work left is least, the driving step cannot come,
though its agent stays enabled while the run is Busy. -/
theorem IsRun.exists_ready {σ : Nat → State} {who : Nat → Option Instr} (hrun : IsRun σ who) (hfair : Fair σ who)
    (hhost : ∀ n i, who n = some i → i.isCommand = false) (hI : ∀ n, Inv (σ n)) (he : ∀ n, EventAhead (σ n)) :
    ∃ n, (σ n).state = .ready := by
  by_contra hnone
  have hb : ∀ n, (σ n).state = .busy := fun n => by
    cases hs : (σ n).state with
    | busy => rfl
    | ready => exact absurd ⟨n, hs⟩ hnone
  obtain ⟨n, hleast⟩ : ∃ n, ∀ m, workLeft (σ n) ≤ workLeft (σ m) :=
    ⟨_, fun m => Function.argmin_le (fun n => workLeft (σ n)) m⟩
  have hconst : ∀ m, n ≤ m → workLeft (σ m) = workLeft (σ n) := fun m hm =>
    le_antisymm (hrun.antitone_workLeft hhost hI hm) (hleast m)
  have hen : ∀ m, n ≤ m → enabled (drivingStep (workLeft (σ n))).agent (σ m) = true := fun m hm => by
    rw [← hconst m hm]
    exact (hI m).enabled_drivingStep (hb m) (he m)
  have hne : (drivingStep (workLeft (σ n))).agent ≠ .host := fun h => by
    have hc := isCommand_drivingStep (workLeft (σ n))
    simp [Instr.isCommand, h] at hc
  obtain ⟨m, i, hm, hi, hagent⟩ := hfair _ n hne hen
  obtain ⟨s', hs', h⟩ := hrun.acts m i hi
  have hw : workLeft s' = workLeft (σ n) := hs'.workLeft_eq.trans (hconst m hm)
  rw [Instr.eq_of_agent_eq (isCommand_drivingStep _) hagent, ← hw] at h
  have hlt := ((hI m).sameBut hs').workLeft_drivingStep (hs'.state_eq.trans (hb m)) ((he m).sameBut hs') h
  exact absurd (hleast (m + 1)) (by omega)

/-- Settles O52: START leaves an event ahead of a run, but for one slot under `never`; the run keeps that (`IsRun.induction`), so it
reaches Ready (`IsRun.exists_ready`); the run of that one slot never does (`Endless`). -/
theorem fairRunReachesReady : Obligations.FairRunReachesReady := by
  intro s σ who hI hs hp hstart hrun hfair hhost
  obtain ⟨⟨ht, hf⟩, hl, h0⟩ := exec_start_staged hs hp hstart
  refine ⟨fun hevent => ?_, fun hone hnever n => ?_⟩
  · have hahead : EventAhead (σ 0) := by
      rw [h0]
      rcases Nat.lt_or_ge 1 s.len with hlen | hlen
      · exact .inl (Nat.sub_pos_of_lt hlen)
      · have hlast : s.len - 1 = 0 := by omega
        have hfires := hevent.resolve_left (by omega)
        exact .inr (.inl (by simp [teRaisedByStart, hlast, hfires]))
    exact hrun.exists_ready hfair hhost
      (hrun.induction hhost (hI.exec hstart) (fun _ _ h hI => hI.sameBut h) fun _ _ _ _ h hI => hI.exec h)
      (hrun.induction hhost hahead (fun _ _ h he => he.sameBut h) fun _ _ _ hc h he => he.exec hc h)
  · have hendless : Endless (σ 0) := by
      rw [h0]
      exact ⟨rfl, by simp [hone], by simp [ht, hnever, teRaisedByStart], hf, rfl⟩
    exact (hrun.induction hhost hendless (fun _ _ h he => he.sameBut h) (fun _ _ _ hc h he => he.exec hc h) n).busy

end Sys2Proof.Machine
end

section
/-! The configuration is fixed (R10, R169), and the state after reset accepts INIT alone (R165). -/

namespace Sys2Proof.Machine

/-! ### The configuration -/

theorem SameBut.cfg_eq {s s' : State} (h : SameBut s s') : s'.cfg = s.cfg := by rw [h]

/-- No instruction writes the configuration. -/
theorem exec_cfg {i : Instr} {s t : State} (h : exec i s = .next t) : t.cfg = s.cfg := by
  rcases exec_cases h with ⟨-, -, rfl⟩ | ⟨_, rfl, -⟩ | ⟨_, -, -, rfl⟩ | ⟨-, -, -, -, rfl⟩ | ⟨-, rfl⟩ | ⟨-, -, -, -, rfl⟩ |
    ⟨-, -, -, rfl⟩ | ⟨-, -, rfl⟩ | ⟨-, -, -, rfl⟩ <;> simp

/-- Settles O39: a step waits, or runs one instruction in a state of the same configuration (`step_next`, `SameBut.cfg_eq`), and
no instruction writes it (`exec_cfg`). -/
theorem noStepChangesTheConfiguration : Obligations.NoStepChangesTheConfiguration := by
  intro s t h
  obtain rfl | ⟨i, s', hsame, -, hexec⟩ := step_next h
  · rfl
  · exact (exec_cfg hexec).trans hsame.cfg_eq

/-! ### The state after reset -/

/-- After reset no agent but HOST has an enabled step. -/
theorem not_enabled_reset {i : Instr} (hc : i.isCommand = false) : enabled i.agent State.reset = false := by
  cases i with
  | init | submit | start | stop | status | capacity => cases hc
  | periodElapsed | isrTe | isrFpe => rfl

/-- After reset every instruction but INIT is refused: an internal step has no enabled agent, and an operation of HOST's comes
before INIT. -/
theorem exec_reset_refused {i : Instr} (hi : i ≠ .init) : ∃ r, exec i State.reset = .refused r := by
  cases hc : i.isCommand with
  | false => exact ⟨_, exec_of_not_enabled (not_enabled_reset hc)⟩
  | true =>
    obtain ⟨hreset, -, hrefused⟩ := operationsBeforeInitAreRefused
    exact ⟨_, hrefused State.reset i hc hi hreset rfl rfl⟩

/-- Settles O41: the fourteen values are those of the definition; INIT is accepted, and nothing else
(`exec_reset_refused`). -/
theorem resetState : Obligations.ResetState := by
  refine ⟨rfl, rfl, rfl, rfl, rfl, rfl, rfl, rfl, rfl, rfl, rfl, rfl, rfl, rfl, fun i => ⟨?_, ?_⟩⟩
  · rintro ⟨t, ht⟩
    by_contra hi
    obtain ⟨r, hr⟩ := exec_reset_refused hi
    rw [ht] at hr
    cases hr
  · rintro rfl
    exact ⟨_, rfl⟩

end Sys2Proof.Machine
end
